-- ==== Sys2Proof/Word.lean ====
section
/-! DEFINITION. The word and byte types of the engine (00_scope.md R7, R9): `u32` and `u8`, both unsigned. -/

namespace Sys2Proof

/-- `u32` (R9): every word of H, W, A to E, LEN_LO, LEN_HI, DATAIN and DOUT (R7 `WORD`). -/
abbrev Word := BitVec 32

/-- `u8` (R9): a message byte, an element of BUF. -/
abbrev Byte := BitVec 8

end Sys2Proof
end

