-- ==== Sys2Proof/Syntax.lean ====
section
/-! DEFINITION. The commands of the engine: one constructor for each row of spec/opcode_table.json (30_encoding.md R49 to
R53). ILLEGAL has no row of its own: it is what every other word does (R54), see Decode.lean and Machine/Illegal.lean. -/

namespace Sys2Proof

/-- A command (R50). -/
inductive Instr where
  /-- RESET: re-initialise the engine (R59). -/
  | reset
  /-- FEED n: absorb `count` bytes of DATAIN (R60). COUNT is a 3-bit field of which 0 to 4 are legal (R51). -/
  | feed (count : BitVec 3)
  /-- RESULT: finalize if needed, then deliver the digest (R68). -/
  | result
  deriving DecidableEq, Repr

end Sys2Proof
end

