-- ==== Sys2Proof/WellFormed.lean ====
section
/-! DEFINITION. Which command terms the encoding admits (30_encoding.md R51): a FEED takes 0 to 4 bytes (R7 `FEED_MAX`). -/

namespace Sys2Proof

/-- "With OP = FEED, the values 0 to 4 are legal" (R51). -/
def Instr.wellFormed : Instr → Bool
  | .reset => true
  | .feed count => decide (count.toNat ≤ 4)
  | .result => true

end Sys2Proof
end

