-- ==== Sys2Proof/Decode.lean ====
section
/-! DEFINITION. The command decoder of 30_encoding.md R53, total on all 2^32 words and rejecting by name, and the encoder
written from the same fields (R49 to R52). -/

namespace Sys2Proof

/-- Why a word is ILLEGAL (R54). The hardware does the same for each; the name says which rule the word breaks. -/
inductive IllegalWord where
  /-- RSV, bits 31:7, is not 0 (R52). -/
  | reservedBitsSet
  /-- OP is 0x0 or 0x4 to 0xF (R50). -/
  | unassignedOp
  /-- COUNT is not 0 in RESET or RESULT, or is 5, 6 or 7 in FEED (R51). -/
  | countNotLegal
  deriving DecidableEq, Repr

/-- OP, bits 3:0 (R49). -/
def opField (w : Word) : BitVec 4 := w.extractLsb' 0 4

/-- COUNT, bits 6:4 (R49). -/
def countField (w : Word) : BitVec 3 := w.extractLsb' 4 3

/-- RSV, bits 31:7 (R49). -/
def rsvField (w : Word) : BitVec 25 := w.extractLsb' 7 25

/-- `Decode(w)` (R53), with the reason for each ILLEGAL. -/
def decode (w : Word) : Except IllegalWord Instr :=
  if rsvField w ≠ 0 then .error .reservedBitsSet
  else if opField w = 0x1 then
    if countField w = 0 then .ok .reset else .error .countNotLegal
  else if opField w = 0x2 then
    if (countField w).toNat ≤ 4 then .ok (.feed (countField w)) else .error .countNotLegal
  else if opField w = 0x3 then
    if countField w = 0 then .ok .result else .error .countNotLegal
  else .error .unassignedOp

/-- The OP value of a command (R50). -/
def opOf : Instr → BitVec 4
  | .reset => 0x1
  | .feed _ => 0x2
  | .result => 0x3

/-- The COUNT value of a command: "RESET and RESULT: must be 0" (R49). -/
def countOf : Instr → BitVec 3
  | .reset => 0
  | .feed count => count
  | .result => 0

/-- The word of a command: RSV ++ COUNT ++ OP with RSV = 0 (R49). -/
def encode (i : Instr) : Word := (0 : BitVec 25) ++ countOf i ++ opOf i

/-- The command the decoder reads from the word whose low `nbits` bits are those of `w` (bit 0 the least significant, as
spec/opcode_table.json numbers them) and whose other bits are 0; `none` for an ILLEGAL word. A command is exactly one 32-bit
word (R49). -/
def decodeTableWord (nbits w : Nat) : Option Instr :=
  match decode (BitVec.ofNat 32 (w % 2 ^ nbits)) with
  | .ok i => some i
  | .error _ => none

end Sys2Proof
end

