-- ==== Sys2Proof/Machine/Hash.lean ====
section
/-! DEFINITION. The engine state proper, the source's HashState (10_state.md R14 to R19), and its initial value (R32). -/

namespace Sys2Proof.Machine

/-- The engine state (10_state.md, section 1). The host cannot read H, LEN, BUF or IDX by any means (R101). -/
structure HashState where
  /-- `H[0..4]`: the running digest accumulator (R14). -/
  h : Vector Word 5
  /-- `LEN_LO`: the low half of the 64-bit bit count (R15). -/
  lenLo : Word
  /-- `LEN_HI`: the high half of the 64-bit bit count (R15). -/
  lenHi : Word
  /-- `BUF[0..63]`: the current, partially filled message block (R16). -/
  buf : Vector Byte 64
  /-- `IDX`: how many bytes of BUF are valid, 0..63 between commands; 64 only inside one (R17). -/
  idx : BitVec 7
  /-- `COMPUTED`: finalization has produced a digest (R18). -/
  computed : Bool
  /-- `CORRUPTED`: the bit counter has overflowed (R19). -/
  corrupted : Bool
  deriving DecidableEq, Repr

/-- `IV` (R7): the initial value of H (R32). -/
def iv : Vector Word 5 := #v[0x67452301, 0xEFCDAB89, 0x98BADCFE, 0x10325476, 0xC3D2E1F0]

/-- BUF with every byte 0x00. -/
def zeroBuf : Vector Byte 64 := Vector.replicate 64 0x00

/-- The value that power-on reset and the RESET command both give the engine state (R32, R104). -/
def HashState.initial : HashState where
  h := iv
  lenLo := 0
  lenHi := 0
  buf := zeroBuf
  idx := 0
  computed := false
  corrupted := false

end Sys2Proof.Machine
end

