-- ==== Sys2Proof/Config.lean ====
section
/-! DEFINITION. What the spec leaves to the platform or leaves unspecified: BASE (R7, R35, U6) and the value of DOUT
after a power-on reset (R32, U1). Both are free values: constants with no body, so that no proof can lean on a value. -/

namespace Sys2Proof.Config

/-- Which 64-byte slot of the platform's address map the register window takes. OPEN (D3, U6), log entry 4. -/
opaque windowIndex : Nat

/-- `BASE` (R7, R35): the base address of the register window, a multiple of 64. -/
def base : Nat := 64 * windowIndex

/-- DOUT[0..4] as the n-th power-on reset leaves it: unspecified (R32, U1 `any value`), log entry 1. -/
opaque powerOnDout (n : Nat) : Vector Word 5

end Sys2Proof.Config
end

