-- ==== Sys2Proof/Machine/Operands.lean ====
section
/-! DEFINITION. Bit-field and byte-order operations (00_scope.md R10, R11), the FEED operand (30_encoding.md R56), and the
addresses of the register window (20_memory.md R35, R36). -/

namespace Sys2Proof.Machine

/-- 32-bit left rotation (R10): `((x << n) OR (x >> (32 − n))) mod 2^32`, for 0 < n < 32. -/
def rotl (x : Word) (n : Nat) : Word := (x <<< n) ||| (x >>> (32 - n))

/-- `be32(b0, b1, b2, b3) = b0 ++ b1 ++ b2 ++ b3`, so b0 is bits 31:24 (R11). -/
def be32 (b0 b1 b2 b3 : Byte) : Word := b0 ++ b1 ++ b2 ++ b3

/-- `byte_k(w) = w[31 − 8k : 24 − 8k]` for k = 0..3, so `byte_0` is the most significant byte (R11). -/
def byteOf (k : Nat) (w : Word) : Byte := w.extractLsb' (24 - 8 * k) 8

/-- The operand of FEED n (R56): `byte_0(DATAIN)`, ..., `byte_(n−1)(DATAIN)`, in that order. -/
def feedBytes (n : Nat) (datain : Word) : List Byte := (List.range n).map (fun k => byteOf k datain)

/-- Offset of CMD (R36). -/
def offCmd : BitVec 6 := 0x00

/-- Offset of DATAIN (R36). -/
def offDatain : BitVec 6 := 0x04

/-- Offset of STATUS (R36). -/
def offStatus : BitVec 6 := 0x08

/-- Offset of DIGEST0 = DOUT[0]; DIGESTi is 4·i above it (R36). -/
def offDigest : BitVec 6 := 0x10

/-- The effective address of an access, `BASE + off` (R84, R85). -/
def effectiveAddress (off : BitVec 6) : Nat := Config.base + off.toNat

/-- The window offset that an address of the platform selects: the window is `BASE + 0x00` to `BASE + 0x3F` (R35). -/
def windowOffset (addr : Nat) : Option (BitVec 6) :=
  if Config.base ≤ addr ∧ addr < Config.base + 64 then some (BitVec.ofNat 6 (addr - Config.base)) else none

/-- An access the engine does not perform (R37): of a size other than 4 bytes, or at an offset that is no multiple of 4. -/
def badAccess (off : BitVec 6) (size : Nat) : Bool := decide (size ≠ 4 ∨ off.toNat % 4 ≠ 0)

end Sys2Proof.Machine
end

