-- ==== Sys2Proof/Machine/Compress.lean ====
section
/-! DEFINITION. The block transformation `Compress()` (43_compression.md R75 to R83), a pure function of H and BUF whose one
side effect is to clear IDX. -/

namespace Sys2Proof.Machine

/-- `W[t]` for t = 0..15: the 64 bytes as big-endian words (R76). -/
def messageWord (buf : Vector Byte 64) (t : Nat) : Word :=
  be32 (buf.toList.getD (4 * t) 0) (buf.toList.getD (4 * t + 1) 0) (buf.toList.getD (4 * t + 2) 0)
    (buf.toList.getD (4 * t + 3) 0)

/-- The next schedule word from those before it, the newest first: `rotl(W[t−3] XOR W[t−8] XOR W[t−14] XOR W[t−16], 1)`
(R77). -/
def nextWord (newestFirst : List Word) : Word :=
  rotl (newestFirst.getD 2 0 ^^^ newestFirst.getD 7 0 ^^^ newestFirst.getD 13 0 ^^^ newestFirst.getD 15 0) 1

/-- `n` schedule extensions (R77), on the words so far, the newest first. -/
def extendSchedule : Nat → List Word → List Word
  | 0, newestFirst => newestFirst
  | n + 1, newestFirst => extendSchedule n (nextWord newestFirst :: newestFirst)

/-- The message schedule `W[0..79]` (R76, R77), in increasing t. -/
def schedule (buf : Vector Byte 64) : List Word :=
  (extendSchedule 64 ((List.range 16).map (messageWord buf)).reverse).reverse

/-- The round function `f(t, B, C, D)` (R79). -/
def roundF (t : Nat) (b c d : Word) : Word :=
  if t < 20 then (b &&& c) ||| (~~~b &&& d)
  else if t < 40 then b ^^^ c ^^^ d
  else if t < 60 then (b &&& c) ||| (b &&& d) ||| (c &&& d)
  else b ^^^ c ^^^ d

/-- The round constant `K(t)` (R79, R7 `K`). -/
def roundK (t : Nat) : Word :=
  if t < 20 then 0x5A827999
  else if t < 40 then 0x6ED9EBA1
  else if t < 60 then 0x8F1BBCDC
  else 0xCA62C1D6

/-- The working variables A to E (R24, R78). -/
structure Working where
  a : Word
  b : Word
  c : Word
  d : Word
  e : Word
  deriving DecidableEq, Repr

/-- Round t with schedule word `w` (R80): all five variables are computed from the old values. -/
def roundStep (t : Nat) (w : Word) (v : Working) : Working where
  a := rotl v.a 5 + roundF t v.b v.c v.d + v.e + w + roundK t
  b := v.a
  c := rotl v.b 30
  d := v.c
  e := v.d

/-- The rounds t, t + 1, ... on the words of the list, in order (R80). -/
def runRounds : Nat → List Word → Working → Working
  | _, [], v => v
  | t, w :: ws, v => runRounds (t + 1) ws (roundStep t w v)

/-- A to E initialised from the accumulator (R78). -/
def workingOf (h : Vector Word 5) : Working := ⟨h[0], h[1], h[2], h[3], h[4]⟩

/-- A to E added back into the accumulator, word by word and modulo 2^32 (R81). -/
def feedForward (h : Vector Word 5) (v : Working) : Vector Word 5 :=
  #v[h[0] + v.a, h[1] + v.b, h[2] + v.c, h[3] + v.d, h[4] + v.e]

/-- The transformation as a total function of H and BUF (43_compression.md, opening paragraph; R75, R83). -/
def compressBlock (h : Vector Word 5) (buf : Vector Byte 64) : Vector Word 5 :=
  feedForward h (runRounds 0 (schedule buf) (workingOf h))

/-- `Compress()` (R75): H from H and BUF, and `IDX <- 0` (R82). -/
def compress (hs : HashState) : HashState := { hs with h := compressBlock hs.h hs.buf, idx := 0 }

end Sys2Proof.Machine
end

