-- ==== Sys2Proof/Machine/State.lean ====
section
/-! DEFINITION. The machine's state: the tuple of 10_state.md (engine state and host interface registers), and beside it the
host's side of the bus, which is the model's own (log entries 2 and 3): the transactions still to come, the replies given so
far, the level of the reset input and the number of free DOUT values drawn. Then the reasons a step can stop. -/

namespace Sys2Proof.Machine

/-- What the host and the platform do to the engine (20_memory.md R33, 44_bus_access.md R84, R85, 70_reset_and_hazards.md
R103). An offset has 6 bits because the window has 64 bytes (R35); the address is `BASE + off`. -/
inductive HostEvent where
  /-- `RD off` (R84), with the access size in bytes. -/
  | read (off : BitVec 6) (size : Nat)
  /-- `WR off, v` (R85), with the access size in bytes. -/
  | write (off : BitVec 6) (size : Nat) (v : Word)
  /-- The platform asserts the reset input (R103). -/
  | assertReset
  /-- The platform releases the reset input (R103). -/
  | releaseReset
  deriving DecidableEq, Repr

/-- The response of a bus transaction (R84, R85). -/
inductive BusResponse where
  | ok
  /-- Bus error: the access was not performed (R37, R90). -/
  | busError
  deriving DecidableEq, Repr

/-- What the host observes of one transaction (R113): the value a read returned, and the response. -/
inductive Reply where
  | read (v : Word) (r : BusResponse)
  | write (r : BusResponse)
  deriving DecidableEq, Repr

/-- The state. `hash`, `datain`, `dout` and `code` are the spec's tuple (10_state.md); the last four fields are the model's
own (log entries 1 to 3). -/
structure State where
  /-- The engine state (R14 to R19). -/
  hash : HashState
  /-- `DATAIN`: up to four message bytes for the next FEED (R20). -/
  datain : Word
  /-- `DOUT[0..4]`: the digest registers (R21). -/
  dout : Vector Word 5
  /-- `CODE`: the status code of the most recent command (R22). -/
  code : BitVec 2
  /-- The host program: the events still to come, the next one first (R57). -/
  pending : List HostEvent
  /-- The observation so far (R113), oldest first. -/
  replies : List Reply
  /-- The reset input is asserted (R103). -/
  resetHeld : Bool
  /-- How many power-on resets there were: the next one leaves `Config.powerOnDout powerOns` in DOUT (U1). -/
  powerOns : Nat
  deriving DecidableEq, Repr

/-- The reasons the machine stops with a fault. -/
inductive Fault where
  /-- A bus access that is not an aligned 32-bit access (R37, R90; U4: the model stops the host program with a host fault).
  Raised by `busRead` and `busWrite` through `runEvent`; the engine's state is unchanged, and `reply` is what the bus answered.
  Safe: a platform whose host goes on after a bus error is not described (log entry 7). -/
  | busError (reply : Reply)
  deriving DecidableEq, Repr

/-- The reasons an event has no meaning. -/
inductive Refusal where
  /-- An instruction with no meaning yet, by its mnemonic in spec/opcode_table.json. Raised by no arm of `exec` now. Safe. -/
  | notModelled (mnemonic : String)
  /-- A bus access while the reset input is asserted: "outside this spec" (R103; D30, U7: refused). Raised by `runEvent`.
  Safe (log entry 3). -/
  | accessDuringReset
  deriving DecidableEq, Repr

/-- The machine right after power-on reset (R32, R103): the initial engine state, DATAIN = 0, CODE = 0, and DOUT unspecified
(the free value `Config.powerOnDout 0`, log entry 1). No host program is loaded and nothing has been observed. -/
def State.reset : State where
  hash := HashState.initial
  datain := 0
  dout := Config.powerOnDout 0
  code := 0
  pending := []
  replies := []
  resetHeld := false
  powerOns := 1

end Sys2Proof.Machine
end

