-- ==== Sys2Proof/Machine/Flags.lean ====
section
/-! DEFINITION. The status indications (10_state.md R26): the bit counter, whose overflow is CORRUPTED (41_feed.md R64), the
status codes (60_exceptions.md R87), and the STATUS word assembled from CODE, COMPUTED and CORRUPTED (30_encoding.md R55). -/

namespace Sys2Proof.Machine

/-- SUCCESS (R87). -/
def codeSuccess : BitVec 2 := 0

/-- STATE_ERROR (R87). -/
def codeStateError : BitVec 2 := 1

/-- ILLEGAL_COMMAND (R87). -/
def codeIllegal : BitVec 2 := 2

/-- `BitCount()` (R64): LEN_LO <- LEN_LO + 8; where that is 0, LEN_HI <- LEN_HI + 1; where that is 0 too, CORRUPTED <- 1. -/
def bitCount (hs : HashState) : HashState :=
  if hs.lenLo + 8 = 0 then
    if hs.lenHi + 1 = 0 then
      { hs with lenLo := hs.lenLo + 8, lenHi := hs.lenHi + 1, corrupted := true }
    else { hs with lenLo := hs.lenLo + 8, lenHi := hs.lenHi + 1 }
  else { hs with lenLo := hs.lenLo + 8 }

/-- `STATUS = zext_32(CORRUPTED ++ COMPUTED ++ 0b000000 ++ CODE)` (R55). -/
def statusWord (s : State) : Word :=
  (BitVec.ofBool s.hash.corrupted ++ BitVec.ofBool s.hash.computed ++ (0 : BitVec 6) ++ s.code).setWidth 32

/-- STATUS.CODE, bits 1:0 of a STATUS word (R55). -/
def statusCode (v : Word) : BitVec 2 := v.extractLsb' 0 2

/-- `CODE <- c` (R12, R88). -/
def State.setCode (s : State) (c : BitVec 2) : State := { s with code := c }

end Sys2Proof.Machine
end

