-- ==== Sys2Proof/Machine/Ops.lean ====
section
/-! DEFINITION. The named operations over the engine state that the commands share: appending a byte to BUF, absorbing message
bytes (41_feed.md R63, R65), the padding (42_result.md R70) and finalization (R72), power-on reset (70_reset_and_hazards.md
R103), and the host's record of replies. The engine has no trap or exception (60_exceptions.md R93), so there is no exception
entry and no return among them: what takes its place is `State.setCode` (Flags.lean). -/

namespace Sys2Proof.Machine

/-- `BUF[IDX] <- b; IDX <- IDX + 1` (R63, R70). IDX is in 0..63 here in every state that meets R27; what happens to BUF
otherwise is log entry 8. -/
def putByte (b : Byte) (hs : HashState) : HashState :=
  { hs with buf := hs.buf.setIfInBounds hs.idx.toNat b, idx := hs.idx + 1 }

/-- `if IDX == 64: Compress()` (R63). -/
def compressIfFull (hs : HashState) : HashState := if hs.idx = 64 then compress hs else hs

/-- `Absorb(b)` (R63): store the byte, count it, and run `Compress()` where it fills the block, on the byte that sets CORRUPTED
too (C2, D13). -/
def absorb (b : Byte) (hs : HashState) : HashState := compressIfFull (bitCount (putByte b hs))

/-- The byte loop of FEED (R60): absorb the bytes in order, and stop after the one that sets CORRUPTED; the bytes after it are
not stored and not counted (R65). -/
def absorbAll : List Byte → HashState → HashState
  | [], hs => hs
  | b :: bs, hs => if (absorb b hs).corrupted then absorb b hs else absorbAll bs (absorb b hs)

/-- `BUF[IDX] <- 0x00; IDX <- IDX + 1`, n times. -/
def putZeros : Nat → HashState → HashState
  | 0, hs => hs
  | n + 1, hs => putZeros n (putByte 0x00 hs)

/-- `while IDX < limit: BUF[IDX] <- 0x00; IDX <- IDX + 1` (R70), for a limit of at most 64. -/
def zeroUntil (limit : Nat) (hs : HashState) : HashState := putZeros (limit - hs.idx.toNat) hs

/-- The length field of the last block (R70): BUF[56..59] <- LEN_HI and BUF[60..63] <- LEN_LO, each big-endian. -/
def putLength (hs : HashState) : HashState :=
  { hs with
    buf := (((((((hs.buf.set 56 (byteOf 0 hs.lenHi)).set 57 (byteOf 1 hs.lenHi)).set 58 (byteOf 2 hs.lenHi)).set 59
      (byteOf 3 hs.lenHi)).set 60 (byteOf 0 hs.lenLo)).set 61 (byteOf 1 hs.lenLo)).set 62 (byteOf 2 hs.lenLo)).set 63
      (byteOf 3 hs.lenLo) }

/-- `if IDX > 56`: no room for the length field, so the block is zero-filled and compressed, the extra pass (R70). -/
def padOverflow (hs : HashState) : HashState := if 56 < hs.idx.toNat then compress (zeroUntil 64 hs) else hs

/-- `Pad()` (R70, reading B of C1): 0x80 at position IDX of the current block, the extra pass where the length field has no
room, zeros up to position 56, the length field, and the final `Compress()`. -/
def pad (hs : HashState) : HashState := compress (putLength (zeroUntil 56 (padOverflow (putByte 0x80 hs))))

/-- What the first RESULT does to the engine state (R68, R72): `Pad()`, then BUF and LEN zeroed and COMPUTED set. -/
def finalize (hs : HashState) : HashState :=
  { pad hs with buf := zeroBuf, lenLo := 0, lenHi := 0, computed := true }

/-- Power-on reset (R32, R103): every state element at its power-on value, DOUT at a value the spec leaves unspecified (U1). -/
def State.powerOn (s : State) : State :=
  { s with
    hash := HashState.initial, datain := 0, dout := Config.powerOnDout s.powerOns, code := 0, powerOns := s.powerOns + 1 }

/-- The host receives a reply (R113). -/
def State.observe (s : State) (r : Reply) : State := { s with replies := s.replies ++ [r] }

end Sys2Proof.Machine
end

