-- ==== Sys2Proof/Machine/Illegal.lean ====
section
/-! DEFINITION. What an ILLEGAL command word does (30_encoding.md R54). It has no row of spec/opcode_table.json, so `exec` has
no arm for it: `runCommand` (Machine/Bus.lean) calls it for a word that does not decode. -/

namespace Sys2Proof.Machine

/-- ILLEGAL (R54): `CODE <- 2`, and nothing else changes, in every state (R92). -/
def execIllegal (s : State) : Host.Outcome State Fault Refusal := .next (s.setCode codeIllegal)

end Sys2Proof.Machine
end

