-- ==== Sys2Proof/Machine/Feed.lean ====
section
/-! DEFINITION. The meaning of FEED (41_feed.md R60 to R65). -/

namespace Sys2Proof.Machine

/-- FEED n (R60). The state check comes first, for n = 0 too (R61, R62, C4); then the n bytes of DATAIN are absorbed in order,
up to and including one that overflows the bit counter (R65). A count of 5, 6 or 7 "makes the word illegal" (R51): no word
decodes to it, and it does what an ILLEGAL word does (log entry 9). -/
def execFeed (count : BitVec 3) (s : State) : Host.Outcome State Fault Refusal :=
  if 4 < count.toNat then execIllegal s
  else if s.hash.computed || s.hash.corrupted then .next (s.setCode codeStateError)
  else
    let hs := absorbAll (feedBytes count.toNat s.datain) s.hash
    .next (({ s with hash := hs } : State).setCode (if hs.corrupted then codeStateError else codeSuccess))

end Sys2Proof.Machine
end

