-- ==== Sys2Proof/Machine/Reset.lean ====
section
/-! DEFINITION. The meaning of RESET (40_reset.md R59). -/

namespace Sys2Proof.Machine

/-- RESET (R59): every engine-state field at its initial value and CODE = SUCCESS; DATAIN and DOUT unchanged (D15). It
succeeds in every state. -/
def execReset (s : State) : Host.Outcome State Fault Refusal :=
  .next (({ s with hash := HashState.initial } : State).setCode codeSuccess)

end Sys2Proof.Machine
end

