-- ==== Sys2Proof/Machine/Result.lean ====
section
/-! DEFINITION. The meaning of RESULT (42_result.md R68 to R74). -/

namespace Sys2Proof.Machine

/-- RESULT (R68): STATE_ERROR and nothing else where CORRUPTED = 1 (R69); otherwise finalize where COMPUTED = 0 (R72), then
`DOUT[i] <- H[i]` (R73) and SUCCESS. With COMPUTED = 1 it re-delivers H (R74). -/
def execResult (s : State) : Host.Outcome State Fault Refusal :=
  if s.hash.corrupted then .next (s.setCode codeStateError)
  else
    let hs := if s.hash.computed then s.hash else finalize s.hash
    .next (({ s with hash := hs, dout := hs.h } : State).setCode codeSuccess)

end Sys2Proof.Machine
end

