-- ==== Sys2Proof/Machine/Bus.lean ====
section
/-! DEFINITION. The host's accesses to the register window (44_bus_access.md R84, R85) and the reset input
(70_reset_and_hazards.md R103): what one event of the host does to the machine, as one atomic step (20_memory.md R33). -/

namespace Sys2Proof.Machine

/-- A host write of word `w` to CMD decodes `w` and runs exactly one command (R53); a word that does not decode is ILLEGAL
(R54). -/
def runCommand (w : Word) (s : State) : Host.Outcome State Fault Refusal :=
  match decode w with
  | .ok i => exec i s
  | .error _ => execIllegal s

/-- The value of a register at an aligned offset (R84): CMD and the reserved offsets read as 0 (R38). -/
def readRegister (off : BitVec 6) (s : State) : Word :=
  if off = offDatain then s.datain
  else if off = offStatus then statusWord s
  else if 0x10 ≤ off.toNat ∧ off.toNat ≤ 0x20 then s.dout.toList.getD ((off.toNat - 0x10) / 4) 0
  else 0

/-- `BusRead(off, size)` (R84): the value and the response. No read changes any state (R39). -/
def busRead (off : BitVec 6) (size : Nat) (s : State) : Word × BusResponse :=
  if badAccess off size then (0, .busError) else (readRegister off s, .ok)

/-- An aligned write (R85): CMD runs a command, DATAIN stores the word, every other offset ignores it (R38). -/
def writeRegister (off : BitVec 6) (v : Word) (s : State) : Host.Outcome State Fault Refusal :=
  if off = offCmd then runCommand v s
  else if off = offDatain then .next { s with datain := v }
  else .next s

/-- The host receives the reply once the command has finished (R33). -/
def replyAfter (r : Reply) : Host.Outcome State Fault Refusal → Host.Outcome State Fault Refusal
  | .next t => .next (t.observe r)
  | .fault f => .fault f
  | .refused x => .refused x

/-- A read transaction: the value goes to the host; a bus error stops it (R37, U4). -/
def runRead (off : BitVec 6) (size : Nat) (s : State) : Host.Outcome State Fault Refusal :=
  match busRead off size s with
  | (v, .ok) => .next (s.observe (.read v .ok))
  | (v, .busError) => .fault (.busError (.read v .busError))

/-- A write transaction, `BusWrite(off, size, v)` (R85): "nothing written, no command" on a bus error, which stops the host
(R37, U4). -/
def runWrite (off : BitVec 6) (size : Nat) (v : Word) (s : State) : Host.Outcome State Fault Refusal :=
  if badAccess off size then .fault (.busError (.write .busError))
  else replyAfter (.write .ok) (writeRegister off v s)

/-- One event. A bus access while the reset input is asserted is outside the spec and refused (R103, D30, U7). Releasing the
asserted input leaves every state element at its power-on value (R103); log entry 3. -/
def runEvent (e : HostEvent) (s : State) : Host.Outcome State Fault Refusal :=
  match e with
  | .read off size => if s.resetHeld then .refused .accessDuringReset else runRead off size s
  | .write off size v => if s.resetHeld then .refused .accessDuringReset else runWrite off size v s
  | .assertReset => .next { s with resetHeld := true }
  | .releaseReset => .next (if s.resetHeld then { s.powerOn with resetHeld := false } else s)

end Sys2Proof.Machine
end

