-- ==== Sys2Proof/Machine/Step.lean ====
section
/-! DEFINITION. One step (20_memory.md R33): the machine takes the host's next event. With none left it is idle, and idling
changes no state (60_exceptions.md R102). -/

namespace Sys2Proof.Machine

/-- `step : State → BusTxn → State × Response` of R33, with the transaction taken from, and the reply added to, the state
(log entry 2). -/
def step (s : State) : Host.Outcome State Fault Refusal :=
  match s.pending with
  | [] => .next s
  | e :: rest => runEvent e { s with pending := rest }

/-- `s` with the command word of `decodeTableWord` as the host's very next transaction: an aligned 32-bit write of it to CMD
(R49). The reset input is released, without which the write would be refused. -/
def State.withFetchWord (s : State) (nbits w : Nat) : State :=
  { s with
    pending := .write offCmd 4 (BitVec.ofNat 32 (w % 2 ^ nbits)) :: s.pending
    resetHeld := false }

end Sys2Proof.Machine
end

