-- ==== Sys2Proof/Machine/HostProgram.lean ====
section
/-! DEFINITION. The host notation (30_encoding.md R57, R58): the pseudo-instructions and their exact expansions into bus
transactions, and the source's `feed(bytes, length)` as a sequence of FEED commands with the status it returns (41_feed.md R66). -/

namespace Sys2Proof.Machine

/-- `WR off, v` (R57): an aligned 32-bit write. -/
def wr (off : BitVec 6) (v : Word) : HostEvent := .write off 4 v

/-- `RD off` (R57): an aligned 32-bit read. -/
def rd (off : BitVec 6) : HostEvent := .read off 4

/-- The pseudo-instructions of R58. -/
inductive Pseudo where
  | reset
  | feed (n : BitVec 3)
  | result
  | data (v : Word)
  | feedb (v : Word) (n : BitVec 3)
  | status
  | digest (i : Fin 5)
  | digestAll
  deriving DecidableEq, Repr

/-- `FEED n` is `WR 0x00, 0x00000002 OR (n << 4)` (R58). -/
def feedWord (n : BitVec 3) : Word := 0x00000002 ||| (n.setWidth 32 <<< 4)

/-- `DIGEST i` is `RD 0x10 + 4·i` (R58). -/
def digestRead (i : Fin 5) : HostEvent := rd (offDigest + BitVec.ofNat 6 (4 * i.val))

/-- The exact expansions (R58). -/
def Pseudo.expand : Pseudo → List HostEvent
  | .reset => [wr offCmd 0x00000001]
  | .feed n => [wr offCmd (feedWord n)]
  | .result => [wr offCmd 0x00000003]
  | .data v => [wr offDatain v]
  | .feedb v n => [wr offDatain v, wr offCmd (feedWord n)]
  | .status => [rd offStatus]
  | .digest i => [digestRead i]
  | .digestAll => [digestRead 0, digestRead 1, digestRead 2, digestRead 3, digestRead 4]

/-- The message cut into groups of 4 bytes, in order, the last of 1 to 3 (R66): for a group g of m bytes the DATAIN word
`be32(g[0], g[1], g[2], g[3])`, with unused bytes 0, and m. -/
def feedGroups : List Byte → List (Word × BitVec 3)
  | [] => []
  | [a] => [(be32 a 0 0 0, 1)]
  | [a, b] => [(be32 a b 0 0, 2)]
  | [a, b, c] => [(be32 a b c 0, 3)]
  | a :: b :: c :: d :: rest => (be32 a b c d, 4) :: feedGroups rest

/-- `DATA v`, `FEED m`, and the read of STATUS after the FEED (R66, R109). -/
def feedAndCheck (g : Word × BitVec 3) : List Pseudo := [.feedb g.1 g.2, .status]

/-- The source's call `feed(bytes, length)` (R66); "A call with length = 0 is one FEED 0", its status read too. -/
def feedCall : List Byte → List Pseudo
  | [] => [.feed 0, .status]
  | b :: bs => (feedGroups (b :: bs)).flatMap feedAndCheck

/-- STATUS.CODE in the reply to a read of STATUS. -/
def replyCode : Reply → Option (BitVec 2)
  | .read v .ok => some (statusCode v)
  | .read _ .busError => none
  | .write _ => none

/-- The status of a `feed(bytes, length)` call, from the replies the call was given, in which every read is one of STATUS (R66):
"STATE_ERROR if any of its FEEDs returned STATE_ERROR, and SUCCESS otherwise". -/
def callStatus (rs : List Reply) : BitVec 2 :=
  if codeStateError ∈ rs.filterMap replyCode then codeStateError else codeSuccess

/-- The transactions of a host program (R57). -/
def expandAll (ps : List Pseudo) : List HostEvent := ps.flatMap Pseudo.expand

end Sys2Proof.Machine
end

