-- ==== Sys2Proof/Safety.lean ====
section
/-! DEFINITION. The terms in which claims speak: the invariants of 10_state.md R27 to R31, the digest of a whole message by the
standard definition (00_scope.md R3, 42_result.md R70), runs of a host program (70_reset_and_hazards.md R113) and what two runs
show the host. None of it is used by the machine. -/

namespace Sys2Proof.Safety

open Sys2Proof.Machine

/-- `LEN = LEN_HI ++ LEN_LO`, the 64-bit bit count (R15). -/
def len (hs : HashState) : BitVec 64 := hs.lenHi ++ hs.lenLo

/-- The counter and the buffer position agree while a message is open (R28): LEN is a multiple of 8, and IDX is the byte count
mod 64. -/
abbrev OpenInv (hs : HashState) : Prop := hs.lenLo.toNat % 8 = 0 ∧ hs.idx.toNat = hs.lenLo.toNat / 8 % 64

/-- The invariants of the engine state (10_state.md, section 5): R27; R30; the LEN and IDX clauses of R28; R29 but for DOUT;
R31. -/
abbrev HashInv (hs : HashState) : Prop :=
  hs.idx.toNat ≤ 63 ∧
  ¬(hs.computed = true ∧ hs.corrupted = true) ∧
  (hs.computed = false → hs.corrupted = false → OpenInv hs) ∧
  (hs.computed = true → hs.buf = zeroBuf ∧ hs.lenLo = 0 ∧ hs.lenHi = 0 ∧ hs.idx = 0) ∧
  (hs.corrupted = true → hs.lenLo = 0 ∧ hs.lenHi = 0 ∧ hs.idx = 0)

/-- The invariants of the machine: those of the engine state, CODE never 3 (R22, U5), and DOUT = H while COMPUTED = 1 (R29). -/
abbrev EngineInv (s : State) : Prop :=
  HashInv s.hash ∧ s.code ≠ 3 ∧ (s.hash.computed = true → s.dout = s.hash.h)

/-- The engine takes message bytes: COMPUTED = 0 and CORRUPTED = 0. -/
abbrev Accepting (hs : HashState) : Prop := hs.computed = false ∧ hs.corrupted = false

/-! ### The standard definition of a digest -/

/-- The 64-bit big-endian length field of a message of `n` bytes: 8·n bits (R70). -/
def lengthField (n : Nat) : List Byte :=
  let l : BitVec 64 := BitVec.ofNat 64 (8 * n)
  (List.range 8).map (fun k => l.extractLsb' (56 - 8 * k) 8)

/-- The padded message (R70): the message, 0x80, the zeros that bring it to 56 bytes mod 64, and the length field. -/
def padMessage (m : List Byte) : List Byte :=
  m ++ [0x80] ++ List.replicate ((119 - m.length % 64) % 64) 0x00 ++ lengthField m.length

/-- The b-th 64-byte block of a list of bytes. -/
def blockAt (bytes : List Byte) (b : Nat) : Vector Byte 64 := Vector.ofFn (fun j => bytes.getD (64 * b + j.val) 0)

/-- The block transformation on the first `n` blocks in order, from `IV`. -/
def hashBlocks (bytes : List Byte) (n : Nat) : Vector Word 5 :=
  (List.range n).foldl (fun h b => compressBlock h (blockAt bytes b)) iv

/-- The SHA-1 digest of a whole message, as five words: the block transformation over its padded blocks. -/
def sha1 (m : List Byte) : Vector Word 5 := hashBlocks (padMessage m) ((padMessage m).length / 64)

/-! ### The blocks that `Pad()` builds (R70), byte by byte -/

/-- Byte k of the length field, k = 0..7: LEN_HI and then LEN_LO, each big-endian (R70). -/
def lenByte (hs : HashState) (k : Nat) : Byte := (len hs).extractLsb' (56 - 8 * k) 8

/-- The one block of `Pad()` where the length field has room: message bytes, 0x80, zeros up to position 56, LEN. -/
def padOnlyBlock (hs : HashState) : Vector Byte 64 :=
  Vector.ofFn (fun j =>
    if j.val < hs.idx.toNat then hs.buf[j.val] else if j.val = hs.idx.toNat then 0x80
    else if j.val < 56 then 0x00 else lenByte hs (j.val - 56))

/-- The first of two blocks: message bytes, 0x80, zeros to the end. -/
def padFirstBlock (hs : HashState) : Vector Byte 64 :=
  Vector.ofFn (fun j =>
    if j.val < hs.idx.toNat then hs.buf[j.val] else if j.val = hs.idx.toNat then 0x80 else 0x00)

/-- The second of two blocks: zeros up to position 56, LEN. -/
def padSecondBlock (hs : HashState) : Vector Byte 64 :=
  Vector.ofFn (fun j => if j.val < 56 then 0x00 else lenByte hs (j.val - 56))

/-! ### Runs -/

/-- `n` steps of the machine. -/
def run (n : Nat) (s : State) : Host.Outcome State Fault Refusal := Sys2Proof.core.run n s

/-- The run of all pending events (R113: "a run ends after the host's last transaction completes"). -/
def runAll (s : State) : Host.Outcome State Fault Refusal := run s.pending.length s

/-- `s` with a host program to run: a program is loaded from outside the machine. -/
def load (s : State) (ps : List Pseudo) : State := { s with pending := expandAll ps }

/-- The message bytes that a list of FEEDs takes, in order: `(v, n)` is `FEEDB v, n` (R58, R56). -/
def chunkBytes (cs : List (Word × BitVec 3)) : List Byte := cs.flatMap (fun c => feedBytes c.2.toNat c.1)

/-- The host program of a list of FEEDs. -/
def chunkProgram (cs : List (Word × BitVec 3)) : List Pseudo := cs.map (fun c => Pseudo.feedb c.1 c.2)

/-- The two engine states agree on all but BUF[IDX..63], the stale bytes (R16). -/
def AgreeButStale (x y : HashState) : Prop :=
  y = { x with buf := y.buf } ∧ ∀ (j : Nat) (_ : j < 64), j < x.idx.toNat → x.buf[j] = y.buf[j]

/-- The two outcomes show the host the same: the same replies, or the same stop. -/
def SameObservation (x y : Host.Outcome State Fault Refusal) : Prop :=
  match x, y with
  | .next s, .next t => s.replies = t.replies
  | .fault f, .fault g => f = g
  | .refused f, .refused g => f = g
  | _, _ => False

/-- The word of a pending write that the machine performs as a command: an aligned 32-bit write to CMD with the reset input
released. -/
def commandOf (s : State) : Option Word :=
  match s.pending with
  | .write off size v :: _ => if s.resetHeld = false ∧ size = 4 ∧ off = offCmd then some v else none
  | _ => none

/-- The next event is the release of the asserted reset input: a power-on reset. -/
def powersOn (s : State) : Prop := s.resetHeld = true ∧ s.pending.head? = some HostEvent.releaseReset

end Sys2Proof.Safety
end

