-- ==== Sys2Proof/Certificates/Slice0/Obligations.lean ====
section
/-! DEFINITION. The statements about the SHA-1 engine, each a `Prop`. A docstring names the rules of spec/ it rests on. Where a
statement speaks of a step, `pending` and `replies` are the model's form of the host's transactions (R33, R57) and of what the
host observes (R113), log entry 2. -/

open Sys2Proof Sys2Proof.Machine Sys2Proof.Safety

/-! ### Encoding -/

/-- R53's table and some of its ILLEGAL words: each word written out from the encoding decodes to the command it stands for. -/
def Obligations.ListedWordsDecode : Prop :=
  decode 0x00000001 = .ok .reset ∧ decode 0x00000002 = .ok (.feed 0) ∧ decode 0x00000012 = .ok (.feed 1) ∧
  decode 0x00000022 = .ok (.feed 2) ∧ decode 0x00000032 = .ok (.feed 3) ∧ decode 0x00000042 = .ok (.feed 4) ∧
  decode 0x00000003 = .ok .result ∧ decode 0x00000000 = .error .unassignedOp ∧
  decode 0x00000052 = .error .countNotLegal ∧ decode 0x00000011 = .error .countNotLegal ∧
  decode 0x80000001 = .error .reservedBitsSet

/-- R50, R51, R52 (with the table of R53): a word decodes to a command exactly when the pair is one of the seven of the table;
every other one of the 2^32 words is ILLEGAL. -/
def Obligations.LegalWordsAreExactlySeven : Prop :=
  ∀ (w : Word) (i : Instr), decode w = .ok i ↔
    (w, i) ∈ ([(0x00000001, .reset), (0x00000002, .feed 0), (0x00000012, .feed 1), (0x00000022, .feed 2),
      (0x00000032, .feed 3), (0x00000042, .feed 4), (0x00000003, .result)] : List (Word × Instr))

/-- Decode and encode agree in both directions: a word decodes to a command exactly when the command is well-formed and the
word is its encoding. So no bit is dropped, and no two words are one command (R49 to R53). -/
def Obligations.DecodeAndEncodeAgree : Prop :=
  ∀ (w : Word) (i : Instr), decode w = .ok i ↔ i.wellFormed = true ∧ w = encode i

/-- R58: `FEED n` is the word 0x00000002 OR (n << 4), and it is the encoding of FEED n. -/
def Obligations.FeedWordEncodesFeed : Prop :=
  ∀ n : BitVec 3, feedWord n = encode (.feed n) ∧ (feedWord n).toNat = 2 + 16 * n.toNat

/-- R11: `byte_k(w) = w[31 − 8k : 24 − 8k]` for k = 0..3, `be32` is the concatenation with b0 in bits 31:24, and packing the
four bytes of a word gives the word back. -/
def Obligations.BytePackingIsBigEndian : Prop :=
  (∀ (w : Word) (k i : Nat), k < 4 → i < 8 → (byteOf k w).getLsbD i = w.getLsbD (24 - 8 * k + i)) ∧
  (∀ b0 b1 b2 b3 : Byte, be32 b0 b1 b2 b3 = b0 ++ b1 ++ b2 ++ b3 ∧
    byteOf 0 (be32 b0 b1 b2 b3) = b0 ∧ byteOf 1 (be32 b0 b1 b2 b3) = b1 ∧
    byteOf 2 (be32 b0 b1 b2 b3) = b2 ∧ byteOf 3 (be32 b0 b1 b2 b3) = b3) ∧
  (∀ w : Word, be32 (byteOf 0 w) (byteOf 1 w) (byteOf 2 w) (byteOf 3 w) = w)

/-- R56, R60: the bytes that FEED n takes from a word packed big-endian are its first n bytes, in order. -/
def Obligations.FeedOperandIsLeadingBytes : Prop :=
  ∀ (b0 b1 b2 b3 : Byte) (n : Nat), n ≤ 4 → feedBytes n (be32 b0 b1 b2 b3) = [b0, b1, b2, b3].take n

/-! ### The machine's step -/

/-- A CMD write runs the command its word decodes to (R33, R53): `step` is `exec` of it on the state past the transaction, and
the reply is given after the command has finished. -/
def Obligations.StepRunsTheDecodedCommand : Prop :=
  ∀ (s : State) (w : Word) (rest : List HostEvent) (i : Instr),
    s.resetHeld = false → s.pending = .write 0x00 4 w :: rest → decode w = .ok i →
    step s = match exec i { s with pending := rest } with
      | .next t => .next { t with replies := t.replies ++ [.write .ok] }
      | .fault f => .fault f
      | .refused r => .refused r

/-- R54 (with R53, R92): any word that is not one of the seven legal ones sets CODE = 2 and changes nothing else, in every
state. -/
def Obligations.IllegalWordChangesOnlyCode : Prop :=
  ∀ (s : State) (w : Word) (rest : List HostEvent),
    s.resetHeld = false → s.pending = .write 0x00 4 w :: rest →
    w ∉ ([0x00000001, 0x00000002, 0x00000012, 0x00000022, 0x00000032, 0x00000042, 0x00000003] : List Word) →
    step s = .next { s with code := 2, pending := rest, replies := s.replies ++ [.write .ok] }

/-- R102: with no transaction to come the engine is idle, and idling changes no state. -/
def Obligations.IdleChangesNothing : Prop := ∀ s : State, s.pending = [] → step s = .next s

/-- R33, R83: an aligned 32-bit access with the reset input released completes, and so does any event of the reset input, in every
state. That no command hangs is an assumption of the model, which the spec makes too (R112, D23; log entry 6, DEDUCED). That an
event of the reset input completes in every state, where the input is asserted twice or released without being asserted too, is
the model's choice (R103 says only 'asserted and released'; log entry 3, DESIGN CHOICE). -/
def Obligations.EveryPerformedEventCompletes : Prop :=
  ∀ (s : State) (e : HostEvent) (rest : List HostEvent), s.pending = e :: rest →
    (match e with
      | .read off size => s.resetHeld = false ∧ size = 4 ∧ off.toNat % 4 = 0
      | .write off size _ => s.resetHeld = false ∧ size = 4 ∧ off.toNat % 4 = 0
      | .assertReset => True
      | .releaseReset => True) →
    ∃ t, step s = .next t ∧ t.pending = rest

/-! ### RESET and power-on -/

/-- R59: RESET, the word 0x00000001 (0x00000011 is ILLEGAL), in every state gives the engine state its initial values and
CODE = SUCCESS, and leaves DATAIN and DOUT. -/
def Obligations.ResetReinitialisesEngine : Prop :=
  decode 0x00000001 = .ok .reset ∧ decode 0x00000011 = .error .countNotLegal ∧
  ∀ s : State, exec .reset s = .next { s with
    hash := { h := #v[0x67452301, 0xEFCDAB89, 0x98BADCFE, 0x10325476, 0xC3D2E1F0], lenLo := 0, lenHi := 0,
              buf := Vector.replicate 64 0x00, idx := 0, computed := false, corrupted := false }
    code := 0 }

/-- R32 (power-on column): the values the spec gives at power-on. DOUT is unspecified, and nothing is said of it. -/
def Obligations.ResetStateHasPowerOnValues : Prop :=
  State.reset.hash.h = #v[0x67452301, 0xEFCDAB89, 0x98BADCFE, 0x10325476, 0xC3D2E1F0] ∧
  State.reset.hash.lenLo = 0 ∧ State.reset.hash.lenHi = 0 ∧
  (∀ (j : Nat) (_ : j < 64), State.reset.hash.buf[j] = 0x00) ∧
  State.reset.hash.idx = 0 ∧ State.reset.hash.computed = false ∧ State.reset.hash.corrupted = false ∧
  State.reset.code = 0 ∧ State.reset.datain = 0

/-- R103: asserting and releasing the reset input, from every state, gives every state element its power-on value (DOUT is
unspecified, and nothing is said of it). That the host's side (`pending`, `replies`) goes on is the model's choice (log entry 3). -/
def Obligations.PowerOnResetGivesPowerOnValues : Prop :=
  ∀ (s : State) (rest : List HostEvent), s.pending = .assertReset :: .releaseReset :: rest →
    ∃ t, run 2 s = .next t ∧ t.hash = State.reset.hash ∧ t.code = 0 ∧ t.datain = 0 ∧
      t.resetHeld = false ∧ t.pending = rest ∧ t.replies = s.replies

/-- R104: power-on reset and the RESET command, done to one state, leave the same engine state and the same CODE; RESET leaves
DATAIN and DOUT unchanged, where power-on reset sets DATAIN to 0. -/
def Obligations.ResetAndPowerOnAgree : Prop :=
  ∀ (s p r : State) (rest rest' : List HostEvent),
    run 2 { s with pending := .assertReset :: .releaseReset :: rest } = .next p →
    step { s with resetHeld := false, pending := .write 0x00 4 0x00000001 :: rest' } = .next r →
    r.hash = p.hash ∧ r.code = p.code ∧ r.datain = s.datain ∧ r.dout = s.dout ∧ p.datain = 0

/-! ### The bit counter and one byte -/

/-- R64: `BitCount()` case by case, and in 64-bit terms where LEN_LO is a multiple of 8: LEN <- (LEN + 8) mod 2^64, and
CORRUPTED is set exactly when LEN was 2^64 − 8. -/
def Obligations.BitCountAddsEightWithCarry : Prop :=
  ∀ hs : HashState,
    (hs.lenLo ≠ 0xFFFFFFF8 → bitCount hs = { hs with lenLo := hs.lenLo + 8 }) ∧
    (hs.lenLo = 0xFFFFFFF8 → hs.lenHi ≠ 0xFFFFFFFF → bitCount hs = { hs with lenLo := 0, lenHi := hs.lenHi + 1 }) ∧
    (hs.lenLo = 0xFFFFFFF8 → hs.lenHi = 0xFFFFFFFF →
      bitCount hs = { hs with lenLo := 0, lenHi := 0, corrupted := true }) ∧
    (hs.lenLo.toNat % 8 = 0 →
      (len (bitCount hs)).toNat = ((len hs).toNat + 8) % 2 ^ 64 ∧
      ((bitCount hs).corrupted = true ↔ hs.corrupted = true ∨ (len hs).toNat = 2 ^ 64 - 8))

/-- R63: one byte is stored at BUF[IDX], IDX goes up by one and the byte is counted; where it fills the block, `Compress()`
runs, on the byte that sets CORRUPTED too, and IDX is 0. Every other byte of BUF is unchanged. -/
def Obligations.AbsorbStoresCountsAndCompresses : Prop :=
  ∀ (b : Byte) (hs : HashState), hs.idx.toNat ≤ 63 →
    (∀ (j : Nat) (_ : j < 64), (absorb b hs).buf[j] = if j = hs.idx.toNat then b else hs.buf[j]) ∧
    (absorb b hs).lenLo = (bitCount hs).lenLo ∧ (absorb b hs).lenHi = (bitCount hs).lenHi ∧
    (absorb b hs).corrupted = (bitCount hs).corrupted ∧ (absorb b hs).computed = hs.computed ∧
    (hs.idx.toNat < 63 → (absorb b hs).idx.toNat = hs.idx.toNat + 1 ∧ (absorb b hs).h = hs.h) ∧
    (hs.idx.toNat = 63 → (absorb b hs).idx = 0 ∧ (absorb b hs).h = compressBlock hs.h (absorb b hs).buf)

/-! ### FEED -/

/-- R61: with COMPUTED = 1 or CORRUPTED = 1 every FEED returns STATE_ERROR and changes nothing but CODE; so a later RESULT does
what it would have done without the FEED. -/
def Obligations.FeedRefusedAfterFinalizeOrCorruption : Prop :=
  ∀ (s : State) (n : BitVec 3), n.toNat ≤ 4 → (s.hash.computed = true ∨ s.hash.corrupted = true) →
    exec (.feed n) s = .next { s with code := 1 } ∧ exec .result { s with code := 1 } = exec .result s

/-- R62: FEED 0 changes nothing but CODE: SUCCESS where the engine accepts input, STATE_ERROR otherwise. -/
def Obligations.FeedZeroChangesOnlyCode : Prop :=
  ∀ s : State,
    (Accepting s.hash → exec (.feed 0) s = .next { s with code := 0 }) ∧
    ((s.hash.computed = true ∨ s.hash.corrupted = true) → exec (.feed 0) s = .next { s with code := 1 })

/-- R60: a FEED n that does not overflow absorbs byte_0 to byte_(n−1) of DATAIN in order and returns SUCCESS; nothing but the
engine state and CODE changes. -/
def Obligations.FeedAbsorbsItsBytes : Prop :=
  ∀ (s : State) (n : BitVec 3), n.toNat ≤ 4 → Accepting s.hash → OpenInv s.hash →
    (len s.hash).toNat + 8 * n.toNat < 2 ^ 64 →
    exec (.feed n) s = .next { s with
      hash := (List.range n.toNat).foldl (fun hs k => absorb (byteOf k s.datain) hs) s.hash
      code := 0 }

/-- R65: where the counter overflows on byte j of a FEED n, the bytes up to and including it are absorbed, the rest are not,
the command returns STATE_ERROR with CORRUPTED = 1, LEN = 0 and IDX = 0, and from then on every FEED and RESULT changes nothing
but CODE. -/
def Obligations.FeedStopsAtCounterOverflow : Prop :=
  ∀ (s : State) (n : BitVec 3) (j : Nat), n.toNat ≤ 4 → Accepting s.hash → OpenInv s.hash →
    1 ≤ j → j ≤ n.toNat → (len s.hash).toNat = 2 ^ 64 - 8 * j →
    ∃ t, exec (.feed n) s = .next t ∧
      t = { s with hash := (List.range j).foldl (fun hs k => absorb (byteOf k s.datain) hs) s.hash, code := 1 } ∧
      t.hash.corrupted = true ∧ t.hash.lenLo = 0 ∧ t.hash.lenHi = 0 ∧ t.hash.idx = 0 ∧
      (∀ m : BitVec 3, m.toNat ≤ 4 → exec (.feed m) t = .next { t with code := 1 }) ∧
      exec .result t = .next { t with code := 1 }

/-- R51, R54: a FEED term whose count no word encodes (5 to 7) does what an ILLEGAL word does. That it is given a meaning at
all is the model's choice (log entry 9): no word decodes to it. -/
def Obligations.FeedCountAboveFourIsIllegal : Prop :=
  ∀ (s : State) (n : BitVec 3), 4 < n.toNat → exec (.feed n) s = .next { s with code := 2 }

/-- R20, R21, R60, for the counts 0 to 4 that a word encodes (R51): in every state FEED completes, and DATAIN, DOUT, COMPUTED and
everything on the host's side are unchanged; so is the engine state unless the engine accepts input. That a term with a count
of 5 to 7 completes too, with the same frame, is the model's choice and no rule of the spec (log entry 9, DESIGN CHOICE). -/
def Obligations.FeedFrame : Prop :=
  ∀ (s : State) (n : BitVec 3), ∃ hs c, exec (.feed n) s = .next { s with hash := hs, code := c } ∧
    hs.computed = s.hash.computed ∧ (¬ Accepting s.hash → hs = s.hash)

/-! ### RESULT -/

/-- R69: with CORRUPTED = 1 RESULT returns STATE_ERROR and changes nothing else. -/
def Obligations.ResultFailsWhenCorrupted : Prop :=
  ∀ s : State, s.hash.corrupted = true → exec .result s = .next { s with code := 1 }

/-- R72 (with R68, R73): the first RESULT pads, zeroes BUF and LEN, sets COMPUTED, leaves IDX at 0, and delivers H with
SUCCESS; DATAIN and the host's side are unchanged. -/
def Obligations.FirstResultFinalizes : Prop :=
  ∀ s : State, Accepting s.hash →
    exec .result s = .next { s with
      hash := { h := (pad s.hash).h, lenLo := 0, lenHi := 0, buf := Vector.replicate 64 0x00, idx := 0,
                computed := true, corrupted := false }
      dout := (pad s.hash).h
      code := 0 }

/-- R73: a RESULT that returns SUCCESS leaves `DOUT[i] = H[i]`, so digest byte j is `byte_(j mod 4)(H[j div 4])`. -/
def Obligations.SuccessfulResultDeliversH : Prop :=
  ∀ s : State, s.hash.corrupted = false →
    ∃ t, exec .result s = .next t ∧ t.code = 0 ∧ (∀ (i : Nat) (_ : i < 5), t.dout[i] = t.hash.h[i]) ∧
      (∀ (j : Nat) (_ : j < 20), byteOf (j % 4) t.dout[j / 4] = byteOf (j % 4) t.hash.h[j / 4])

/-- R74: a RESULT with COMPUTED = 1 does not pad or compress: it writes DOUT <- H and returns SUCCESS. So a second RESULT
delivers the digest of the first, with a failed FEED in between too. -/
def Obligations.RepeatedResultRedelivers : Prop :=
  (∀ s : State, s.hash.computed = true → s.hash.corrupted = false →
    exec .result s = .next { s with dout := s.hash.h, code := 0 }) ∧
  (∀ (s t u v : State) (n : BitVec 3), Accepting s.hash → n.toNat ≤ 4 →
    exec .result s = .next t → exec (.feed n) t = .next u → exec .result u = .next v →
    v.dout = t.dout ∧ v.hash = t.hash ∧ v.code = 0)

/-- R70: what `Pad()` writes to BUF and hashes, byte by byte. With IDX ≤ 55 one block: the message bytes, 0x80, zeros, LEN. With
IDX ≥ 56 two: 0x80 still goes at position IDX of the current block. LEN is not counted up, and IDX ends at 0. -/
def Obligations.PadBuildsTheFinalBlocks : Prop :=
  ∀ hs : HashState, hs.idx.toNat ≤ 63 →
    (hs.idx.toNat ≤ 55 → (pad hs).h = compressBlock hs.h (padOnlyBlock hs) ∧ (pad hs).buf = padOnlyBlock hs) ∧
    (56 ≤ hs.idx.toNat → (pad hs).h = compressBlock (compressBlock hs.h (padFirstBlock hs)) (padSecondBlock hs) ∧
      (pad hs).buf = padSecondBlock hs) ∧
    (pad hs).idx = 0 ∧ (pad hs).lenLo = hs.lenLo ∧ (pad hs).lenHi = hs.lenHi ∧
    (pad hs).computed = hs.computed ∧ (pad hs).corrupted = hs.corrupted

/-! ### The block transformation -/

/-- R10: `rotl(x, n)`, for 0 < n < 32, is the 32-bit left rotation: bit i of the result is bit (i − n) mod 32 of x. -/
def Obligations.RotlIsCircular : Prop :=
  ∀ (x : Word) (n i : Nat), 0 < n → n < 32 → i < 32 → (rotl x n).getLsbD i = x.getLsbD ((i + 32 - n) % 32)

/-- R76 and R77: the schedule has 80 words; the first 16 are the block's big-endian words, and each later one is
`rotl(W[t−3] XOR W[t−8] XOR W[t−14] XOR W[t−16], 1)`. -/
def Obligations.ScheduleIsSixteenWordsExtended : Prop :=
  ∀ buf : Vector Byte 64, (schedule buf).length = 80 ∧
    (∀ (t : Nat) (_ : t < 16), (schedule buf)[t]? = some (be32 buf[4 * t] buf[4 * t + 1] buf[4 * t + 2] buf[4 * t + 3])) ∧
    (∀ t : Nat, 16 ≤ t → t < 80 → (schedule buf)[t]? = some (rotl ((schedule buf).getD (t - 3) 0 ^^^
      (schedule buf).getD (t - 8) 0 ^^^ (schedule buf).getD (t - 14) 0 ^^^ (schedule buf).getD (t - 16) 0) 1))

/-- R79: the four stages, bit by bit: a choice in rounds 0–19, parity in 20–39 and 60–79, a majority in 40–59; and the four
constants. -/
def Obligations.RoundFunctionsByStage : Prop :=
  ∀ (t : Nat) (b c d : Word), t < 80 →
    (t ≤ 19 → roundF t b c d = (b &&& c) ||| (~~~b &&& d) ∧ roundK t = 0x5A827999 ∧
      ∀ i, i < 32 → (roundF t b c d).getLsbD i = if b.getLsbD i then c.getLsbD i else d.getLsbD i) ∧
    (20 ≤ t → t ≤ 39 → roundF t b c d = b ^^^ c ^^^ d ∧ roundK t = 0x6ED9EBA1) ∧
    (40 ≤ t → t ≤ 59 → roundF t b c d = (b &&& c) ||| (b &&& d) ||| (c &&& d) ∧ roundK t = 0x8F1BBCDC ∧
      ∀ i, i < 32 → ((roundF t b c d).getLsbD i = true ↔
        2 ≤ (b.getLsbD i).toNat + (c.getLsbD i).toNat + (d.getLsbD i).toNat)) ∧
    (60 ≤ t → roundF t b c d = b ^^^ c ^^^ d ∧ roundK t = 0xCA62C1D6)

/-- R80: one round, all five variables computed from the old values. -/
def Obligations.RoundShiftsWorkingVariables : Prop :=
  ∀ (t : Nat) (w a b c d e : Word), roundStep t w ⟨a, b, c, d, e⟩ =
    ⟨rotl a 5 + roundF t b c d + e + w + roundK t, a, rotl b 30, c, d⟩

/-- R75, R78, R81, R82: `Compress()` runs rounds 0 to 79 in order from A..E = H on W[0..79], adds A..E back into H word by word,
clears IDX and changes nothing else; BUF is read and kept. -/
def Obligations.CompressRunsEightyRounds : Prop :=
  ∀ hs : HashState,
    let v := (List.range 80).foldl (fun v t => roundStep t ((schedule hs.buf).getD t 0) v)
      ⟨hs.h[0], hs.h[1], hs.h[2], hs.h[3], hs.h[4]⟩
    compress hs = { hs with
      h := #v[hs.h[0] + v.a, hs.h[1] + v.b, hs.h[2] + v.c, hs.h[3] + v.d, hs.h[4] + v.e]
      idx := 0 }

/-! ### The register window -/

/-- R55: the fields of STATUS as a read gives them, CODE = 3 never produced, the values at power-on, after a successful RESULT
and after a FEED that hit the overflow, and that a write to STATUS is ignored. (A FEED term with a count of 5 to 7, which no word
decodes to, never meets the premise of the overflow clause: the model's choice, log entry 9.) -/
def Obligations.StatusWordLayout : Prop :=
  (∀ s : State, (statusWord s).extractLsb' 10 22 = 0 ∧ (statusWord s).getLsbD 9 = s.hash.corrupted ∧
    (statusWord s).getLsbD 8 = s.hash.computed ∧ (statusWord s).extractLsb' 2 6 = 0 ∧
    (statusWord s).extractLsb' 0 2 = s.code) ∧
  (∀ (s : State) (rest : List HostEvent), s.resetHeld = false → s.pending = .read 0x08 4 :: rest →
    step s = .next { s with pending := rest, replies := s.replies ++ [.read (statusWord s) .ok] }) ∧
  (∀ (s t : State) (w : Word), runCommand w s = .next t → t.code ≠ 3) ∧
  statusWord State.reset = 0x00000000 ∧
  (∀ s t : State, exec .result s = .next t → t.code = 0 → statusWord t = 0x00000100) ∧
  (∀ (s t : State) (n : BitVec 3), Accepting s.hash → exec (.feed n) s = .next t → t.code = 1 →
    statusWord t = 0x00000201) ∧
  (∀ (s : State) (v : Word) (rest : List HostEvent), s.resetHeld = false → s.pending = .write 0x08 4 v :: rest →
    step s = .next { s with pending := rest, replies := s.replies ++ [.write .ok] })

/-- R84 with R36: what an aligned read of each offset returns; no read changes any state but the host's own record (R39). -/
def Obligations.ReadReturnsTheRegister : Prop :=
  ∀ (s : State) (off : BitVec 6) (rest : List HostEvent),
    s.resetHeld = false → s.pending = .read off 4 :: rest → off.toNat % 4 = 0 →
    ∃ v : Word, step s = .next { s with pending := rest, replies := s.replies ++ [.read v .ok] } ∧
      (off = 0x04 → v = s.datain) ∧ (off = 0x08 → v = statusWord s) ∧
      (∀ (i : Nat) (_ : i < 5), off.toNat = 0x10 + 4 * i → v = s.dout[i]) ∧
      (off = 0x00 ∨ off = 0x0C ∨ 0x24 ≤ off.toNat → v = 0)

/-- R38: writes to STATUS, DIGEST0..4 and the reserved offsets are ignored without an error response, reads of the reserved
offsets and of CMD return 0, and none of these changes any state. -/
def Obligations.IgnoredAccessesChangeNothing : Prop :=
  ∀ (s : State) (off : BitVec 6) (v : Word) (rest : List HostEvent), s.resetHeld = false → off.toNat % 4 = 0 →
    (off ≠ 0x00 → off ≠ 0x04 → s.pending = .write off 4 v :: rest →
      step s = .next { s with pending := rest, replies := s.replies ++ [.write .ok] }) ∧
    ((off = 0x00 ∨ off = 0x0C ∨ 0x24 ≤ off.toNat) → s.pending = .read off 4 :: rest →
      step s = .next { s with pending := rest, replies := s.replies ++ [.read 0x00000000 .ok] })

/-- R85, R20: a write to DATAIN stores the word and has no other effect. -/
def Obligations.DatainWriteStoresTheWord : Prop :=
  ∀ (s : State) (v : Word) (rest : List HostEvent), s.resetHeld = false → s.pending = .write 0x04 4 v :: rest →
    step s = .next { s with datain := v, pending := rest, replies := s.replies ++ [.write .ok] }

/-- R37 (U4): an access that is not an aligned 32-bit access is not performed: a read returns 0, the response is a bus error,
and the machine stops with that as a host fault, with no state after it. -/
def Obligations.UnalignedOrNarrowAccessIsBusError : Prop :=
  ∀ (s : State) (off : BitVec 6) (size : Nat) (v : Word) (rest : List HostEvent), s.resetHeld = false →
    (size ≠ 4 ∨ off.toNat % 4 ≠ 0) →
    busRead off size s = (0, .busError) ∧
    (s.pending = .read off size :: rest → step s = .fault (.busError (.read 0 .busError))) ∧
    (s.pending = .write off size v :: rest → step s = .fault (.busError (.write .busError)))

/-- R103 (D30, U7): a bus access while the reset input is asserted is refused, by name. -/
def Obligations.AccessDuringResetIsRefused : Prop :=
  ∀ (s : State) (off : BitVec 6) (size : Nat) (v : Word) (rest : List HostEvent), s.resetHeld = true →
    (s.pending = .read off size :: rest ∨ s.pending = .write off size v :: rest) →
    step s = .refused .accessDuringReset

/-- R35, R84: the window is the 64 bytes from BASE, a multiple of 64; an address `BASE + off` selects offset `off`, and every
other address of the platform lies outside the window. -/
def Obligations.WindowAddressesSelectOffsets : Prop :=
  Config.base % 64 = 0 ∧ (∀ off : BitVec 6, windowOffset (effectiveAddress off) = some off) ∧
  (∀ addr : Nat, windowOffset addr = none ↔ addr < Config.base ∨ Config.base + 64 ≤ addr)

/-- R40, R111: the five DIGEST reads, one after the other, return DOUT[0..4] and change nothing but the host's record. -/
def Obligations.DigestAllReadsDout : Prop :=
  ∀ s : State, s.resetHeld = false →
    runAll (load s [.digestAll]) = .next { s with
      pending := []
      replies := s.replies ++ s.dout.toList.map (fun v => Reply.read v .ok) }

/-! ### Whole-machine rules -/

/-- R39, R88: an event that is neither a command nor a power-on reset leaves the engine state, DOUT and CODE; and DATAIN changes
only by a write to DATAIN or a power-on reset, to the word written or to 0. -/
def Obligations.OnlyCommandsChangeEngineState : Prop :=
  ∀ s t : State, step s = .next t →
    (commandOf s = none → ¬ powersOn s → t.hash = s.hash ∧ t.dout = s.dout ∧ t.code = s.code) ∧
    (t.datain ≠ s.datain →
      (∃ v rest, s.pending = .write 0x04 4 v :: rest ∧ t.datain = v) ∨ (powersOn s ∧ t.datain = 0))

/-- R91, R18, R19: only the RESET command and a power-on reset clear CORRUPTED or COMPUTED. -/
def Obligations.OnlyResetClearsFlags : Prop :=
  ∀ s t : State, step s = .next t →
    (s.hash.corrupted = true ∧ t.hash.corrupted = false) ∨ (s.hash.computed = true ∧ t.hash.computed = false) →
    commandOf s = some 0x00000001 ∨ powersOn s

/-- R19, R89: only a FEED of 1 to 4 bytes sets CORRUPTED, in a state that accepts input, and it reports STATE_ERROR. -/
def Obligations.OnlyFeedSetsCorrupted : Prop :=
  ∀ s t : State, step s = .next t → s.hash.corrupted = false → t.hash.corrupted = true →
    s.hash.computed = false ∧ t.code = 1 ∧
    ∃ n : BitVec 3, 1 ≤ n.toNat ∧ n.toNat ≤ 4 ∧ commandOf s = some (feedWord n)

/-- R18, R30: only a RESULT that succeeds sets COMPUTED, in a state with CORRUPTED = 0. -/
def Obligations.OnlyResultSetsComputed : Prop :=
  ∀ s t : State, step s = .next t → s.hash.computed = false → t.hash.computed = true →
    commandOf s = some 0x00000003 ∧ s.hash.corrupted = false ∧ t.code = 0

/-- R21: only a RESULT that returns SUCCESS writes DOUT, with H; but for a power-on reset nothing else changes it. -/
def Obligations.OnlyResultWritesDout : Prop :=
  ∀ s t : State, step s = .next t → t.dout ≠ s.dout →
    (commandOf s = some 0x00000003 ∧ t.code = 0 ∧ t.dout = t.hash.h) ∨ powersOn s

/-- R91: once CORRUPTED = 1, every FEED and RESULT returns STATE_ERROR and changes nothing, an ILLEGAL word returns
ILLEGAL_COMMAND and changes nothing, RESET succeeds and clears it, and no other event but a power-on reset does; once
COMPUTED = 1, every FEED returns STATE_ERROR. -/
def Obligations.CorruptionIsStickyUntilReset : Prop :=
  (∀ s t : State, s.hash.corrupted = true → step s = .next t → commandOf s ≠ some 0x00000001 → ¬ powersOn s →
    t.hash.corrupted = true) ∧
  ∀ (s : State) (w : Word), commandOf s = some w →
    (s.hash.corrupted = true →
      (w ≠ 0x00000001 → step s = .next { s with
        code := if w ∈ ([0x00000002, 0x00000012, 0x00000022, 0x00000032, 0x00000042, 0x00000003] : List Word) then 1 else 2
        pending := s.pending.tail
        replies := s.replies ++ [.write .ok] }) ∧
      (w = 0x00000001 → ∃ t, step s = .next t ∧ t.hash.corrupted = false ∧ t.code = 0)) ∧
    (s.hash.computed = true → (∃ n : BitVec 3, n.toNat ≤ 4 ∧ w = feedWord n) → step s = .next { s with
        code := 1
        pending := s.pending.tail
        replies := s.replies ++ [.write .ok] })

/-- R89: STATE_ERROR has exactly four causes, each with its effect and the STATUS after it. (R89 speaks of counts 0 to 4; that a
FEED term with a count of 5 to 7, which no word decodes to, is no fifth cause is the model's choice, log entry 9.) -/
def Obligations.StateErrorHasFourCauses : Prop :=
  ∀ (s t : State) (i : Instr), HashInv s.hash → exec i s = .next t →
    (t.code = 1 ↔
      ((∃ n : BitVec 3, n.toNat ≤ 4 ∧ i = .feed n ∧ s.hash.computed = true) ∨
       (∃ n : BitVec 3, n.toNat ≤ 4 ∧ i = .feed n ∧ s.hash.corrupted = true) ∨
       (i = .result ∧ s.hash.corrupted = true) ∨
       (∃ (n : BitVec 3) (j : Nat), n.toNat ≤ 4 ∧ i = .feed n ∧ Accepting s.hash ∧ 1 ≤ j ∧ j ≤ n.toNat ∧
         (len s.hash).toNat = 2 ^ 64 - 8 * j))) ∧
    (t.code = 1 → s.hash.computed = true → t = { s with code := 1 } ∧ statusWord t = 0x00000101) ∧
    (t.code = 1 → s.hash.corrupted = true → t = { s with code := 1 } ∧ statusWord t = 0x00000201) ∧
    (∀ (n : BitVec 3) (j : Nat), n.toNat ≤ 4 → i = .feed n → Accepting s.hash → 1 ≤ j → j ≤ n.toNat →
      (len s.hash).toNat = 2 ^ 64 - 8 * j →
      t = { s with hash := (List.range j).foldl (fun hs k => absorb (byteOf k s.datain) hs) s.hash, code := 1 } ∧
      t.hash.corrupted = true ∧ statusWord t = 0x00000201)

/-- R29: while COMPUTED = 1, nothing changes H, BUF, LEN, IDX or DOUT but RESET and a power-on reset. -/
def Obligations.FinalizedEngineIsFrozen : Prop :=
  ∀ s t : State, EngineInv s → s.hash.computed = true → step s = .next t →
    (t.hash = s.hash ∧ t.dout = s.dout) ∨ commandOf s = some 0x00000001 ∨ powersOn s

/-! ### Invariants -/

/-- The invariants of 10_state.md section 5 hold at reset. -/
def Obligations.InvariantsHoldAtReset : Prop := EngineInv State.reset

/-- The invariants of 10_state.md section 5 (R27 to R31, U5) are kept by every step, from every state that meets them. -/
def Obligations.EveryStepKeepsInvariants : Prop := ∀ s t : State, EngineInv s → step s = .next t → EngineInv t

/-! ### Messages -/

/-- R28 and R8: after the n bytes of a message fed to a fresh engine, CORRUPTED is set exactly when n reaches 2^61; before that
LEN = 8·n, IDX = n mod 64, BUF[0..IDX−1] are the last IDX bytes in order, and H has taken every full block. -/
def Obligations.OpenMessageState : Prop :=
  ∀ m : List Byte,
    ((absorbAll m HashState.initial).corrupted = true ↔ 2 ^ 61 ≤ m.length) ∧
    (m.length < 2 ^ 61 →
      (len (absorbAll m HashState.initial)).toNat = 8 * m.length ∧
      (absorbAll m HashState.initial).idx.toNat = m.length % 64 ∧
      (absorbAll m HashState.initial).buf.toList.take (m.length % 64) = m.drop (m.length - m.length % 64) ∧
      (absorbAll m HashState.initial).h = hashBlocks m (m.length / 64))

/-- R66: the groups of a message are its bytes in order, in FEEDs of 1 to 4 bytes. The source's call `feed(bytes, length)`, as
its sequence of FEED commands, each followed by a read of STATUS, completes. From a state that accepts input it absorbs the bytes
in order up to one that overflows the counter, and the status that the reads give the call is STATE_ERROR exactly when the
engine is then corrupted. From any other state it changes no engine state, and the call's status is STATE_ERROR. -/
def Obligations.FeedCallAbsorbsTheMessage : Prop :=
  (∀ m : List Byte, chunkBytes (feedGroups m) = m ∧ ∀ g ∈ feedGroups m, 1 ≤ g.2.toNat ∧ g.2.toNat ≤ 4) ∧
  ∀ (s : State) (m : List Byte), s.resetHeld = false →
    ∃ t rs, runAll (load s (feedCall m)) = .next t ∧ t.replies = s.replies ++ rs ∧ t.code = callStatus rs ∧
      t.dout = s.dout ∧ t.pending = [] ∧
      (Accepting s.hash → t.hash = absorbAll m s.hash ∧ callStatus rs = if t.hash.corrupted then 1 else 0) ∧
      (¬ Accepting s.hash → t.hash = s.hash ∧ callStatus rs = 1)

/-- R66: once a FEED of a call returns STATE_ERROR, stopping there or going on with any further bytes gives the same engine
state and DOUT, CODE = STATE_ERROR and a call's status of STATE_ERROR. -/
def Obligations.FeedCallErrorIsFinal : Prop :=
  ∀ (s t : State) (xs ys : List Byte), s.resetHeld = false → runAll (load s (feedCall xs)) = .next t → t.code = 1 →
    ∃ u rs, runAll (load s (feedCall (xs ++ ys))) = .next u ∧ u.replies = s.replies ++ rs ∧
      u.hash = t.hash ∧ u.dout = t.dout ∧ u.code = 1 ∧ callStatus rs = 1

/-- R67, chunking invariance: two sequences of FEEDs whose bytes, concatenated, are the same message, from the same state that
accepts input, end in the same engine state and the same DOUT (only CODE and DATAIN can differ), and the RESULT that follows
delivers the same digest. (Where they overflow, too.) -/
def Obligations.ChunkingInvariance : Prop :=
  ∀ (s : State) (xs ys : List (Word × BitVec 3)), s.resetHeld = false → Accepting s.hash →
    (∀ c ∈ xs, c.2.toNat ≤ 4) → (∀ c ∈ ys, c.2.toNat ≤ 4) → chunkBytes xs = chunkBytes ys →
    (∃ t u, runAll (load s (chunkProgram xs)) = .next t ∧ runAll (load s (chunkProgram ys)) = .next u ∧
      t.hash = u.hash ∧ t.dout = u.dout) ∧
    (∃ t u, runAll (load s (chunkProgram xs ++ [.result])) = .next t ∧
      runAll (load s (chunkProgram ys ++ [.result])) = .next u ∧ t.hash = u.hash ∧ t.dout = u.dout)

/-- R3: for every message the engine can hash (R8: at most 2^61 − 1 bytes), feeding it to a freshly initialised engine and asking
for the RESULT delivers the digest of the standard definition, computed from the whole padded message at once. -/
def Obligations.DigestIsSha1OfTheMessage : Prop :=
  ∀ (s : State) (m : List Byte), s.resetHeld = false → m.length < 2 ^ 61 →
    ∃ t, runAll (load s ([.reset] ++ feedCall m ++ [.result])) = .next t ∧ t.dout = sha1 m ∧ t.hash.h = sha1 m ∧
      t.code = 0 ∧ t.hash.computed = true ∧ statusWord t = 0x00000100

/-! ### What the host cannot learn -/

/-- R101: one read shows the host only DATAIN, DOUT, CODE, COMPUTED and CORRUPTED: two states that agree on these give it the
same, whatever H, BUF, IDX and LEN are. -/
def Obligations.ReadsShowNoInternalState : Prop :=
  ∀ (s t : State) (off : BitVec 6) (size : Nat) (rest rest' : List HostEvent), s.resetHeld = t.resetHeld →
    s.datain = t.datain → s.dout = t.dout → s.code = t.code → s.hash.computed = t.hash.computed →
    s.hash.corrupted = t.hash.corrupted → s.replies = t.replies →
    s.pending = .read off size :: rest → t.pending = .read off size :: rest' →
    SameObservation (step s) (step t)

/-- R65, R31 (D14): what H and BUF hold after the counter overflow is never observable, by any run of any host program. -/
def Obligations.CorruptedHashIsUnobservable : Prop :=
  ∀ (s : State) (h : Vector Word 5) (buf : Vector Byte 64) (n : Nat), s.hash.corrupted = true →
    SameObservation (run n s)
      (run n { s with hash := { s.hash with h := h, buf := buf } })

/-- R16: stale bytes of BUF, at positions IDX..63, never reach a digest or anything else the host sees, by any run of any host
program. -/
def Obligations.StaleBytesAreUnobservable : Prop :=
  ∀ (s : State) (hs : HashState) (n : Nat), s.hash.idx.toNat ≤ 63 → AgreeButStale s.hash hs →
    SameObservation (run n s) (run n { s with hash := hs })
end

