-- ==== Sys2Proof/Laws/State.lean ====
section
/-! SUPPORT. The small lemmas of State: one for each field and each named update, all true by definition, so that no later proof
unfolds an update. -/

namespace Sys2Proof.Machine.State

section
variable (s : State) (c : BitVec 2) (r : Reply)

@[simp] theorem setCode_hash : (s.setCode c).hash = s.hash := rfl
@[simp] theorem setCode_datain : (s.setCode c).datain = s.datain := rfl
@[simp] theorem setCode_dout : (s.setCode c).dout = s.dout := rfl
@[simp] theorem setCode_code : (s.setCode c).code = c := rfl
@[simp] theorem setCode_pending : (s.setCode c).pending = s.pending := rfl
@[simp] theorem setCode_replies : (s.setCode c).replies = s.replies := rfl
@[simp] theorem setCode_resetHeld : (s.setCode c).resetHeld = s.resetHeld := rfl
@[simp] theorem setCode_powerOns : (s.setCode c).powerOns = s.powerOns := rfl

@[simp] theorem observe_hash : (s.observe r).hash = s.hash := rfl
@[simp] theorem observe_datain : (s.observe r).datain = s.datain := rfl
@[simp] theorem observe_dout : (s.observe r).dout = s.dout := rfl
@[simp] theorem observe_code : (s.observe r).code = s.code := rfl
@[simp] theorem observe_pending : (s.observe r).pending = s.pending := rfl
@[simp] theorem observe_replies : (s.observe r).replies = s.replies ++ [r] := rfl
@[simp] theorem observe_resetHeld : (s.observe r).resetHeld = s.resetHeld := rfl
@[simp] theorem observe_powerOns : (s.observe r).powerOns = s.powerOns := rfl

@[simp] theorem powerOn_hash : s.powerOn.hash = HashState.initial := rfl
@[simp] theorem powerOn_datain : s.powerOn.datain = 0 := rfl
@[simp] theorem powerOn_code : s.powerOn.code = 0 := rfl
@[simp] theorem powerOn_pending : s.powerOn.pending = s.pending := rfl
@[simp] theorem powerOn_replies : s.powerOn.replies = s.replies := rfl
@[simp] theorem powerOn_resetHeld : s.powerOn.resetHeld = s.resetHeld := rfl
@[simp] theorem powerOn_powerOns : s.powerOn.powerOns = s.powerOns + 1 := rfl
end

section

@[simp] theorem reset_hash : State.reset.hash = HashState.initial := rfl
@[simp] theorem reset_code : State.reset.code = 0 := rfl
@[simp] theorem reset_datain : State.reset.datain = 0 := rfl
@[simp] theorem reset_pending : State.reset.pending = [] := rfl
end

end Sys2Proof.Machine.State

namespace Sys2Proof.Machine.HashState

@[simp] theorem initial_h : initial.h = iv := rfl
@[simp] theorem initial_lenLo : initial.lenLo = 0 := rfl
@[simp] theorem initial_lenHi : initial.lenHi = 0 := rfl
@[simp] theorem initial_buf : initial.buf = zeroBuf := rfl
@[simp] theorem initial_idx : initial.idx = 0 := rfl
@[simp] theorem initial_computed : initial.computed = false := rfl
@[simp] theorem initial_corrupted : initial.corrupted = false := rfl

end Sys2Proof.Machine.HashState
end

