-- ==== Sys2Proof/Laws/Ops.lean ====
section
/-! SUPPORT. The spec lemmas of the shared operations over the engine state (Machine/Flags.lean, Compress.lean, Ops.lean): for
each, once, what it does to each field. -/

namespace Sys2Proof.Machine

/-! ### The bit counter -/

section
variable (hs : HashState)

@[simp] theorem bitCount_h : (bitCount hs).h = hs.h := by unfold bitCount; split <;> (try split) <;> rfl
@[simp] theorem bitCount_buf : (bitCount hs).buf = hs.buf := by unfold bitCount; split <;> (try split) <;> rfl
@[simp] theorem bitCount_idx : (bitCount hs).idx = hs.idx := by unfold bitCount; split <;> (try split) <;> rfl
@[simp] theorem bitCount_computed : (bitCount hs).computed = hs.computed := by
  unfold bitCount; split <;> (try split) <;> rfl
@[simp] theorem bitCount_lenLo : (bitCount hs).lenLo = hs.lenLo + 8 := by unfold bitCount; split <;> (try split) <;> rfl

theorem bitCount_lenHi : (bitCount hs).lenHi = if hs.lenLo + 8 = 0 then hs.lenHi + 1 else hs.lenHi := by
  unfold bitCount; split <;> (try split) <;> rfl

theorem bitCount_corrupted : (bitCount hs).corrupted =
    (hs.corrupted || (decide (hs.lenLo + 8 = 0) && decide (hs.lenHi + 1 = 0))) := by
  unfold bitCount
  by_cases hl : hs.lenLo + 8 = 0
  · by_cases hh : hs.lenHi + 1 = 0 <;> simp only [hl, hh, if_true, if_false] <;> simp
  · simp only [hl, if_false]; simp

/-! ### `Compress()` -/

@[simp] theorem compress_h : (compress hs).h = compressBlock hs.h hs.buf := rfl
@[simp] theorem compress_lenLo : (compress hs).lenLo = hs.lenLo := rfl
@[simp] theorem compress_lenHi : (compress hs).lenHi = hs.lenHi := rfl
@[simp] theorem compress_buf : (compress hs).buf = hs.buf := rfl
@[simp] theorem compress_idx : (compress hs).idx = 0 := rfl
@[simp] theorem compress_computed : (compress hs).computed = hs.computed := rfl
@[simp] theorem compress_corrupted : (compress hs).corrupted = hs.corrupted := rfl

@[simp] theorem compressIfFull_lenLo : (compressIfFull hs).lenLo = hs.lenLo := by unfold compressIfFull; split <;> rfl
@[simp] theorem compressIfFull_lenHi : (compressIfFull hs).lenHi = hs.lenHi := by unfold compressIfFull; split <;> rfl
@[simp] theorem compressIfFull_buf : (compressIfFull hs).buf = hs.buf := by unfold compressIfFull; split <;> rfl
@[simp] theorem compressIfFull_computed : (compressIfFull hs).computed = hs.computed := by
  unfold compressIfFull; split <;> rfl
@[simp] theorem compressIfFull_corrupted : (compressIfFull hs).corrupted = hs.corrupted := by
  unfold compressIfFull; split <;> rfl
theorem compressIfFull_h : (compressIfFull hs).h = if hs.idx = 64 then compressBlock hs.h hs.buf else hs.h := by
  unfold compressIfFull; split <;> rfl
theorem compressIfFull_idx : (compressIfFull hs).idx = if hs.idx = 64 then 0 else hs.idx := by
  unfold compressIfFull; split <;> rfl

/-! ### Appending a byte -/

variable (b : Byte)

@[simp] theorem putByte_h : (putByte b hs).h = hs.h := rfl
@[simp] theorem putByte_lenLo : (putByte b hs).lenLo = hs.lenLo := rfl
@[simp] theorem putByte_lenHi : (putByte b hs).lenHi = hs.lenHi := rfl
@[simp] theorem putByte_buf : (putByte b hs).buf = hs.buf.setIfInBounds hs.idx.toNat b := rfl
@[simp] theorem putByte_idx : (putByte b hs).idx = hs.idx + 1 := rfl
@[simp] theorem putByte_computed : (putByte b hs).computed = hs.computed := rfl
@[simp] theorem putByte_corrupted : (putByte b hs).corrupted = hs.corrupted := rfl

/-- IDX goes up by one where it is in 0..63 (no 7-bit wrap). -/
theorem putByte_idx_toNat (h : hs.idx.toNat ≤ 63) : (putByte b hs).idx.toNat = hs.idx.toNat + 1 := by
  rw [putByte_idx, BitVec.toNat_add]; simp; omega

/-! ### Absorbing a byte -/

@[simp] theorem absorb_computed : (absorb b hs).computed = hs.computed := by simp [absorb]
@[simp] theorem absorb_lenLo : (absorb b hs).lenLo = hs.lenLo + 8 := by simp [absorb]
theorem absorb_lenHi : (absorb b hs).lenHi = if hs.lenLo + 8 = 0 then hs.lenHi + 1 else hs.lenHi := by
  rw [absorb, compressIfFull_lenHi, bitCount_lenHi]; rfl
theorem absorb_corrupted : (absorb b hs).corrupted =
    (hs.corrupted || (decide (hs.lenLo + 8 = 0) && decide (hs.lenHi + 1 = 0))) := by
  rw [absorb, compressIfFull_corrupted, bitCount_corrupted]; rfl
@[simp] theorem absorb_buf : (absorb b hs).buf = hs.buf.setIfInBounds hs.idx.toNat b := by simp [absorb]
theorem absorb_idx : (absorb b hs).idx = if hs.idx + 1 = 64 then 0 else hs.idx + 1 := by
  simp [absorb, compressIfFull_idx]
theorem absorb_h : (absorb b hs).h =
    if hs.idx + 1 = 64 then compressBlock hs.h (hs.buf.setIfInBounds hs.idx.toNat b) else hs.h := by
  simp [absorb, compressIfFull_h]

/-- IDX after one byte, as a number: it wraps at 64, and so stays in 0..63. -/
theorem absorb_idx_toNat (h : hs.idx.toNat ≤ 63) : (absorb b hs).idx.toNat = (hs.idx.toNat + 1) % 64 := by
  rw [absorb_idx]
  split
  · next h64 =>
    have := congrArg BitVec.toNat h64
    rw [BitVec.toNat_add] at this
    simp at this ⊢
    omega
  · next h64 =>
    have : ¬ (hs.idx + 1).toNat = 64 := fun e => h64 (BitVec.eq_of_toNat_eq (by simpa using e))
    rw [BitVec.toNat_add] at *
    simp at *
    omega

end

/-! ### The byte loop of FEED -/

@[simp] theorem absorbAll_nil (hs : HashState) : absorbAll [] hs = hs := rfl

theorem absorbAll_cons_stop {b : Byte} {bs : List Byte} {hs : HashState} (h : (absorb b hs).corrupted = true) :
    absorbAll (b :: bs) hs = absorb b hs := by simp [absorbAll, h]

theorem absorbAll_cons_go {b : Byte} {bs : List Byte} {hs : HashState} (h : (absorb b hs).corrupted = false) :
    absorbAll (b :: bs) hs = absorbAll bs (absorb b hs) := by simp [absorbAll, h]

@[simp] theorem absorbAll_computed (bs : List Byte) (hs : HashState) : (absorbAll bs hs).computed = hs.computed := by
  induction bs generalizing hs with
  | nil => rfl
  | cons b bs ih => rw [absorbAll]; split <;> simp [ih]

/-- The loop over a concatenation: the second part is absorbed only where the first did not overflow the counter. -/
theorem absorbAll_append (xs ys : List Byte) (hs : HashState) (h : hs.corrupted = false) :
    absorbAll (xs ++ ys) hs =
      if (absorbAll xs hs).corrupted then absorbAll xs hs else absorbAll ys (absorbAll xs hs) := by
  induction xs generalizing hs with
  | nil => simp [h]
  | cons x xs ih =>
    cases hc : (absorb x hs).corrupted with
    | true => simp [absorbAll_cons_stop hc, hc]
    | false => simp [absorbAll_cons_go hc, ih _ hc]

/-! ### Zero fill, padding and finalization -/

section
variable (hs : HashState) (n : Nat)

@[simp] theorem putZeros_h : (putZeros n hs).h = hs.h := by
  induction n generalizing hs with
  | zero => rfl
  | succ n ih => simp [putZeros, ih]
@[simp] theorem putZeros_lenLo : (putZeros n hs).lenLo = hs.lenLo := by
  induction n generalizing hs with
  | zero => rfl
  | succ n ih => simp [putZeros, ih]
@[simp] theorem putZeros_lenHi : (putZeros n hs).lenHi = hs.lenHi := by
  induction n generalizing hs with
  | zero => rfl
  | succ n ih => simp [putZeros, ih]
@[simp] theorem putZeros_computed : (putZeros n hs).computed = hs.computed := by
  induction n generalizing hs with
  | zero => rfl
  | succ n ih => simp [putZeros, ih]
@[simp] theorem putZeros_corrupted : (putZeros n hs).corrupted = hs.corrupted := by
  induction n generalizing hs with
  | zero => rfl
  | succ n ih => simp [putZeros, ih]

/-- Zero fill, byte by byte: positions IDX..IDX+n−1 become 0 and the others keep their values. -/
theorem putZeros_buf (h : hs.idx.toNat + n ≤ 64) (j : Nat) (hj : j < 64) :
    (putZeros n hs).buf[j] = if hs.idx.toNat ≤ j ∧ j < hs.idx.toNat + n then 0x00 else hs.buf[j] := by
  induction n generalizing hs with
  | zero => rw [if_neg (by omega)]; rfl
  | succ n ih =>
    have hi := putByte_idx_toNat hs 0x00 (by omega)
    rw [putZeros, ih _ (by omega), hi]
    simp only [putByte_buf, Vector.getElem_setIfInBounds]
    split <;> split <;> (try split) <;> first | rfl | omega

theorem putZeros_idx (h : hs.idx.toNat + n ≤ 64) : (putZeros n hs).idx.toNat = hs.idx.toNat + n := by
  induction n generalizing hs with
  | zero => rfl
  | succ n ih =>
    have hi := putByte_idx_toNat hs 0x00 (by omega)
    rw [putZeros, ih _ (by omega), hi]; omega

variable (limit : Nat)

@[simp] theorem zeroUntil_h : (zeroUntil limit hs).h = hs.h := by simp [zeroUntil]
@[simp] theorem zeroUntil_lenLo : (zeroUntil limit hs).lenLo = hs.lenLo := by simp [zeroUntil]
@[simp] theorem zeroUntil_lenHi : (zeroUntil limit hs).lenHi = hs.lenHi := by simp [zeroUntil]
@[simp] theorem zeroUntil_computed : (zeroUntil limit hs).computed = hs.computed := by simp [zeroUntil]
@[simp] theorem zeroUntil_corrupted : (zeroUntil limit hs).corrupted = hs.corrupted := by simp [zeroUntil]

/-- `while IDX < limit` (R70), byte by byte: positions IDX..limit−1 become 0. -/
theorem zeroUntil_buf (hl : limit ≤ 64) (h : hs.idx.toNat ≤ 64) (j : Nat) (hj : j < 64) :
    (zeroUntil limit hs).buf[j] = if hs.idx.toNat ≤ j ∧ j < limit then 0x00 else hs.buf[j] := by
  rw [zeroUntil, putZeros_buf _ _ (by omega)]
  split <;> split <;> first | rfl | omega

@[simp] theorem padOverflow_lenLo : (padOverflow hs).lenLo = hs.lenLo := by unfold padOverflow; split <;> simp
@[simp] theorem padOverflow_lenHi : (padOverflow hs).lenHi = hs.lenHi := by unfold padOverflow; split <;> simp
@[simp] theorem padOverflow_computed : (padOverflow hs).computed = hs.computed := by unfold padOverflow; split <;> simp
@[simp] theorem padOverflow_corrupted : (padOverflow hs).corrupted = hs.corrupted := by unfold padOverflow; split <;> simp

@[simp] theorem putLength_h : (putLength hs).h = hs.h := rfl
@[simp] theorem putLength_lenLo : (putLength hs).lenLo = hs.lenLo := rfl
@[simp] theorem putLength_lenHi : (putLength hs).lenHi = hs.lenHi := rfl
@[simp] theorem putLength_idx : (putLength hs).idx = hs.idx := rfl
@[simp] theorem putLength_computed : (putLength hs).computed = hs.computed := rfl
@[simp] theorem putLength_corrupted : (putLength hs).corrupted = hs.corrupted := rfl

/-- The length field, byte by byte: the message part of the block is kept. -/
theorem putLength_buf (j : Nat) (hj : j < 64) : (putLength hs).buf[j] =
    if j < 56 then hs.buf[j] else if j < 60 then byteOf (j - 56) hs.lenHi else byteOf (j - 60) hs.lenLo := by
  simp only [putLength, Vector.getElem_set]
  by_cases h : j < 56
  · simp only [h, if_true]
    repeat rw [if_neg (by omega)]
  · rw [if_neg h]
    have : j = 56 ∨ j = 57 ∨ j = 58 ∨ j = 59 ∨ j = 60 ∨ j = 61 ∨ j = 62 ∨ j = 63 := by omega
    rcases this with rfl | rfl | rfl | rfl | rfl | rfl | rfl | rfl <;> simp

@[simp] theorem pad_lenLo : (pad hs).lenLo = hs.lenLo := by simp [pad]
@[simp] theorem pad_lenHi : (pad hs).lenHi = hs.lenHi := by simp [pad]
@[simp] theorem pad_idx : (pad hs).idx = 0 := rfl
@[simp] theorem pad_computed : (pad hs).computed = hs.computed := by simp [pad]
@[simp] theorem pad_corrupted : (pad hs).corrupted = hs.corrupted := by simp [pad]

@[simp] theorem finalize_h : (finalize hs).h = (pad hs).h := rfl
@[simp] theorem finalize_lenLo : (finalize hs).lenLo = 0 := rfl
@[simp] theorem finalize_lenHi : (finalize hs).lenHi = 0 := rfl
@[simp] theorem finalize_buf : (finalize hs).buf = zeroBuf := rfl
@[simp] theorem finalize_idx : (finalize hs).idx = 0 := rfl
@[simp] theorem finalize_computed : (finalize hs).computed = true := rfl
@[simp] theorem finalize_corrupted : (finalize hs).corrupted = hs.corrupted := by simp [finalize]

end

end Sys2Proof.Machine
end

