-- ==== Sys2Proof/Laws/Exec.lean ====
section
/-! SUPPORT. What each command can do, once: an equation for each case of its meaning, and one inversion lemma for each command. -/

namespace Sys2Proof.Machine

theorem execReset_eq (s : State) :
    exec .reset s = .next { s with hash := HashState.initial, code := codeSuccess } := rfl

theorem execIllegal_eq (s : State) : execIllegal s = .next { s with code := codeIllegal } := rfl

/-- FEED with a legal count and no state error, as one next state. -/
theorem execFeed_accepting {s : State} {n : BitVec 3} (hn : n.toNat ≤ 4) (hc : s.hash.computed = false)
    (hk : s.hash.corrupted = false) :
    exec (.feed n) s = .next { s with
      hash := absorbAll (feedBytes n.toNat s.datain) s.hash
      code := if (absorbAll (feedBytes n.toNat s.datain) s.hash).corrupted then codeStateError else codeSuccess } := by
  have : ¬ 4 < n.toNat := by omega
  simp [exec, execFeed, this, hc, hk, State.setCode]

/-- Everything a FEED can do. -/
theorem execFeed_cases {s t : State} {n : BitVec 3} (h : exec (.feed n) s = .next t) :
    (4 < n.toNat ∧ t = { s with code := codeIllegal }) ∨
    (n.toNat ≤ 4 ∧ (s.hash.computed = true ∨ s.hash.corrupted = true) ∧ t = { s with code := codeStateError }) ∨
    (n.toNat ≤ 4 ∧ s.hash.computed = false ∧ s.hash.corrupted = false ∧
      t = { s with
        hash := absorbAll (feedBytes n.toNat s.datain) s.hash
        code := if (absorbAll (feedBytes n.toNat s.datain) s.hash).corrupted then codeStateError else codeSuccess }) := by
  simp only [exec, execFeed, execIllegal] at h
  split at h
  · next hn => cases h; exact .inl ⟨hn, rfl⟩
  · next hn =>
    split at h
    · next hf => cases h; exact .inr (.inl ⟨by omega, by simpa using hf, rfl⟩)
    · next hf =>
      cases h
      simp only [Bool.or_eq_true, not_or, Bool.not_eq_true] at hf
      exact .inr (.inr ⟨by omega, hf.1, hf.2, rfl⟩)

/-- Everything a RESULT can do. -/
theorem execResult_cases {s t : State} (h : exec .result s = .next t) :
    (s.hash.corrupted = true ∧ t = { s with code := codeStateError }) ∨
    (s.hash.corrupted = false ∧ s.hash.computed = true ∧ t = { s with dout := s.hash.h, code := codeSuccess }) ∨
    (s.hash.corrupted = false ∧ s.hash.computed = false ∧
      t = { s with hash := finalize s.hash, dout := (finalize s.hash).h, code := codeSuccess }) := by
  simp only [exec, execResult] at h
  split at h
  · next hk => cases h; exact .inl ⟨hk, rfl⟩
  · next hk =>
    cases hc : s.hash.computed with
    | true =>
      simp only [hc, if_true] at h
      cases h; exact .inr (.inl ⟨by simpa using hk, rfl, rfl⟩)
    | false =>
      simp only [hc, Bool.false_eq_true, if_false] at h
      cases h; exact .inr (.inr ⟨by simpa using hk, rfl, rfl⟩)

/-- No command stops the machine, whatever the state. -/
theorem exec_completes (i : Instr) (s : State) : ∃ t, exec i s = .next t := by
  cases i with
  | reset => exact ⟨_, rfl⟩
  | feed n => simp only [exec, execFeed, execIllegal]; split; exact ⟨_, rfl⟩; split <;> exact ⟨_, rfl⟩
  | result => simp only [exec, execResult]; split <;> exact ⟨_, rfl⟩

/-- No command touches DATAIN or the host's side of the bus. -/
theorem exec_frame {i : Instr} {s t : State} (h : exec i s = .next t) :
    t.datain = s.datain ∧ t.pending = s.pending ∧ t.replies = s.replies ∧ t.resetHeld = s.resetHeld ∧
      t.powerOns = s.powerOns := by
  cases i with
  | reset => rw [execReset_eq] at h; cases h; simp
  | feed n => rcases execFeed_cases h with ⟨-, rfl⟩ | ⟨-, -, rfl⟩ | ⟨-, -, -, rfl⟩ <;> simp
  | result => rcases execResult_cases h with ⟨-, rfl⟩ | ⟨-, -, rfl⟩ | ⟨-, -, rfl⟩ <;> simp

end Sys2Proof.Machine
end

