-- ==== Sys2Proof/Laws/Bus.lean ====
section
/-! SUPPORT. What a step can do, once: its cases by the host's next event, and one inversion lemma. -/

namespace Sys2Proof.Machine

theorem badAccess_false {off : BitVec 6} {size : Nat} : badAccess off size = false ↔ size = 4 ∧ off.toNat % 4 = 0 := by
  simp [badAccess]

theorem badAccess_true {off : BitVec 6} {size : Nat} : badAccess off size = true ↔ size ≠ 4 ∨ off.toNat % 4 ≠ 0 := by
  simp [badAccess]

theorem step_idle {s : State} (h : s.pending = []) : step s = .next s := by simp [step, h]

theorem step_cons {s : State} {e : HostEvent} {rest : List HostEvent} (h : s.pending = e :: rest) :
    step s = runEvent e { s with pending := rest } := by simp [step, h]

/-- A command word, of whatever kind, completes. -/
theorem runCommand_completes (w : Word) (s : State) : ∃ t, runCommand w s = .next t := by
  unfold runCommand
  split
  · exact exec_completes _ _
  · exact ⟨_, rfl⟩

/-- No command word touches DATAIN or the host's side of the bus. -/
theorem runCommand_frame {w : Word} {s t : State} (h : runCommand w s = .next t) :
    t.datain = s.datain ∧ t.pending = s.pending ∧ t.replies = s.replies ∧ t.resetHeld = s.resetHeld ∧
      t.powerOns = s.powerOns := by
  unfold runCommand at h
  split at h
  · exact exec_frame h
  · cases h; simp

theorem runRead_aligned {off : BitVec 6} {s : State} (h : off.toNat % 4 = 0) :
    runRead off 4 s = .next (s.observe (.read (readRegister off s) .ok)) := by
  have : badAccess off 4 = false := badAccess_false.2 ⟨rfl, h⟩
  simp [runRead, busRead, this]

theorem runWrite_command {v : Word} {s t : State} (h : runCommand v s = .next t) :
    runWrite offCmd 4 v s = .next (t.observe (.write .ok)) := by
  have : badAccess offCmd 4 = false := by decide
  simp [runWrite, this, writeRegister, replyAfter, h]

theorem runWrite_datain {v : Word} {s : State} :
    runWrite offDatain 4 v s = .next (({ s with datain := v } : State).observe (.write .ok)) := by
  have hb : badAccess offDatain 4 = false := by decide
  have hc : offDatain ≠ offCmd := by decide
  simp [runWrite, hb, writeRegister, replyAfter, hc]

theorem runWrite_ignored {off : BitVec 6} {v : Word} {s : State} (h : off.toNat % 4 = 0) (hc : off ≠ offCmd)
    (hd : off ≠ offDatain) : runWrite off 4 v s = .next (s.observe (.write .ok)) := by
  have : badAccess off 4 = false := badAccess_false.2 ⟨rfl, h⟩
  simp [runWrite, this, writeRegister, replyAfter, hc, hd]

/-- Everything a read can do. -/
theorem runRead_cases {off : BitVec 6} {size : Nat} {s t : State} (h : runRead off size s = .next t) :
    size = 4 ∧ off.toNat % 4 = 0 ∧ t = s.observe (.read (readRegister off s) .ok) := by
  cases hb : badAccess off size with
  | true => simp [runRead, busRead, hb] at h
  | false =>
    obtain ⟨rfl, h4⟩ := badAccess_false.1 hb
    rw [runRead_aligned h4] at h
    cases h; exact ⟨rfl, h4, rfl⟩

/-- Everything a write can do. -/
theorem runWrite_cases {off : BitVec 6} {size : Nat} {v : Word} {s t : State} (h : runWrite off size v s = .next t) :
    size = 4 ∧ off.toNat % 4 = 0 ∧
    ((off = offCmd ∧ ∃ u, runCommand v s = .next u ∧ t = u.observe (.write .ok)) ∨
     (off = offDatain ∧ t = ({ s with datain := v } : State).observe (.write .ok)) ∨
     (off ≠ offCmd ∧ off ≠ offDatain ∧ t = s.observe (.write .ok))) := by
  cases hb : badAccess off size with
  | true => simp [runWrite, hb] at h
  | false =>
    obtain ⟨rfl, h4⟩ := badAccess_false.1 hb
    refine ⟨rfl, h4, ?_⟩
    by_cases hc : off = offCmd
    · subst hc
      obtain ⟨u, hu⟩ := runCommand_completes v s
      rw [runWrite_command hu] at h
      cases h; exact .inl ⟨rfl, u, hu, rfl⟩
    · by_cases hd : off = offDatain
      · subst hd; rw [runWrite_datain] at h; cases h; exact .inr (.inl ⟨rfl, rfl⟩)
      · rw [runWrite_ignored h4 hc hd] at h; cases h; exact .inr (.inr ⟨hc, hd, rfl⟩)

section
variable {s : State} {rest : List HostEvent}

/-- The step of an aligned read. -/
theorem step_read {off : BitVec 6} (hr : s.resetHeld = false) (hp : s.pending = .read off 4 :: rest)
    (h : off.toNat % 4 = 0) :
    step s = .next (({ s with pending := rest } : State).observe
      (.read (readRegister off { s with pending := rest }) .ok)) := by
  rw [step_cons hp]; simp only [runEvent, hr, Bool.false_eq_true, if_false]; rw [runRead_aligned h]

/-- The step of a command write. -/
theorem step_command {w : Word} {t : State} (hr : s.resetHeld = false) (hp : s.pending = .write offCmd 4 w :: rest)
    (h : runCommand w { s with pending := rest } = .next t) : step s = .next (t.observe (.write .ok)) := by
  rw [hr] at h
  rw [step_cons hp]; simp only [runEvent, hr, Bool.false_eq_true, if_false]; exact runWrite_command h

/-- The step of a write to DATAIN. -/
theorem step_datain {v : Word} (hr : s.resetHeld = false) (hp : s.pending = .write offDatain 4 v :: rest) :
    step s = .next (({ s with pending := rest, datain := v } : State).observe (.write .ok)) := by
  rw [step_cons hp]; simp only [runEvent, hr, Bool.false_eq_true, if_false]; rw [runWrite_datain]

/-- The step of an ignored write. -/
theorem step_ignored {off : BitVec 6} {v : Word} (hr : s.resetHeld = false) (hp : s.pending = .write off 4 v :: rest)
    (h : off.toNat % 4 = 0) (hc : off ≠ offCmd) (hd : off ≠ offDatain) :
    step s = .next (({ s with pending := rest } : State).observe (.write .ok)) := by
  rw [step_cons hp]; simp only [runEvent, hr, Bool.false_eq_true, if_false]; rw [runWrite_ignored h hc hd]

theorem step_assertReset (hp : s.pending = .assertReset :: rest) :
    step s = .next { s with pending := rest, resetHeld := true } := by rw [step_cons hp]; rfl

theorem step_releaseReset (hr : s.resetHeld = true) (hp : s.pending = .releaseReset :: rest) :
    step s = .next { ({ s with pending := rest } : State).powerOn with resetHeld := false } := by
  rw [step_cons hp]; simp only [runEvent, hr, if_true]

theorem step_releaseReset_idle (hr : s.resetHeld = false) (hp : s.pending = .releaseReset :: rest) :
    step s = .next { s with pending := rest } := by
  rw [step_cons hp]; simp only [runEvent, hr, Bool.false_eq_true, if_false]

end

/-- Everything a step can do, by the host's next event: nothing (idle); a read; a command; a write to DATAIN; an ignored
write; or an event of the reset input. -/
theorem step_cases {s t : State} (h : step s = .next t) :
    (s.pending = [] ∧ t = s) ∨
    (∃ rest, (∃ off v, s.pending = .read off 4 :: rest ∧ off.toNat % 4 = 0 ∧ s.resetHeld = false ∧
        t = ({ s with pending := rest } : State).observe (.read v .ok) ∧
        v = readRegister off { s with pending := rest }) ∨
      (∃ w u, s.pending = .write offCmd 4 w :: rest ∧ s.resetHeld = false ∧
        runCommand w { s with pending := rest } = .next u ∧ t = u.observe (.write .ok)) ∨
      (∃ v, s.pending = .write offDatain 4 v :: rest ∧ s.resetHeld = false ∧
        t = ({ s with pending := rest, datain := v } : State).observe (.write .ok)) ∨
      (∃ off v, s.pending = .write off 4 v :: rest ∧ off.toNat % 4 = 0 ∧ off ≠ offCmd ∧ off ≠ offDatain ∧
        s.resetHeld = false ∧ t = ({ s with pending := rest } : State).observe (.write .ok)) ∨
      (s.pending = .assertReset :: rest ∧ t = { s with pending := rest, resetHeld := true }) ∨
      (s.pending = .releaseReset :: rest ∧ s.resetHeld = true ∧
        t = { ({ s with pending := rest } : State).powerOn with resetHeld := false }) ∨
      (s.pending = .releaseReset :: rest ∧ s.resetHeld = false ∧ t = { s with pending := rest })) := by
  rcases hp : s.pending with _ | ⟨e, rest⟩
  · rw [step_idle hp] at h; cases h; exact .inl ⟨rfl, rfl⟩
  · right; refine ⟨rest, ?_⟩
    rw [step_cons hp] at h
    cases e with
    | read off size =>
      simp only [runEvent] at h
      split at h
      · cases h
      · next hr =>
        obtain ⟨rfl, h4, ht⟩ := runRead_cases h
        exact .inl ⟨off, _, rfl, h4, by simpa using hr, ht, rfl⟩
    | write off size v =>
      simp only [runEvent] at h
      split at h
      · cases h
      · next hr =>
        replace hr : s.resetHeld = false := by simpa using hr
        obtain ⟨rfl, h4, ⟨rfl, u, hu, ht⟩ | ⟨rfl, ht⟩ | ⟨hc, hd, ht⟩⟩ := runWrite_cases h
        · exact .inr (.inl ⟨v, u, rfl, hr, hu, ht⟩)
        · exact .inr (.inr (.inl ⟨v, rfl, hr, ht⟩))
        · exact .inr (.inr (.inr (.inl ⟨off, v, rfl, h4, hc, hd, hr, ht⟩)))
    | assertReset =>
      simp only [runEvent] at h; cases h
      exact .inr (.inr (.inr (.inr (.inl ⟨rfl, rfl⟩))))
    | releaseReset =>
      simp only [runEvent] at h
      cases hr : s.resetHeld with
      | true =>
        simp only [hr, if_true] at h; cases h
        exact .inr (.inr (.inr (.inr (.inr (.inl ⟨rfl, rfl, rfl⟩)))))
      | false =>
        simp only [hr, Bool.false_eq_true, if_false] at h; cases h
        exact .inr (.inr (.inr (.inr (.inr (.inr ⟨rfl, rfl, rfl⟩)))))

end Sys2Proof.Machine
end

