-- ==== Sys2Proof/Laws/PerInstr.lean ====
section
/-! SUPPORT. The per-instruction family of LAWS.json: a law of commands as syntax, one lemma for each constructor of `Instr`. -/

namespace Sys2Proof.Laws

/-- The encoding of a command keeps RSV at 0 (R52) and has the command's OP and COUNT in their places (R49). -/
def EncodedFields.Statement (i : Instr) : Prop :=
  rsvField (encode i) = 0 ∧ countField (encode i) = countOf i ∧ opField (encode i) = opOf i

theorem EncodedFields.reset : EncodedFields.Statement .reset := by unfold EncodedFields.Statement; decide

theorem EncodedFields.feed (count : BitVec 3) : EncodedFields.Statement (.feed count) := by
  revert count; unfold EncodedFields.Statement; decide

theorem EncodedFields.result : EncodedFields.Statement .result := by unfold EncodedFields.Statement; decide

end Sys2Proof.Laws
end

