-- ==== Sys2Proof/Laws/Run.lean ====
section
/-! SUPPORT. Runs of the machine, step by step and piece by piece, and the 64-bit count as a number. -/

namespace Sys2Proof.Safety

open Sys2Proof.Machine

theorem run_zero (s : State) : run 0 s = .next s := rfl

theorem run_succ (n : Nat) (s : State) : run (n + 1) s =
    match step s with
    | .next t => run n t
    | .fault r => .fault r
    | .refused r => .refused r := by
  show Host.Core.run Sys2Proof.core (n + 1) s = _
  simp only [Host.Core.run, core]
  cases step s <;> rfl

theorem run_succ_next {n : Nat} {s t : State} (h : step s = .next t) : run (n + 1) s = run n t := by rw [run_succ, h]

/-- A run goes on from where its first part ends. -/
theorem run_add {m : Nat} {s t : State} (n : Nat) (h : run m s = .next t) : run (m + n) s = run n t := by
  induction m generalizing s with
  | zero => rw [run_zero] at h; cases h; rw [Nat.zero_add]
  | succ m ih =>
    rw [show m + 1 + n = (m + n) + 1 by omega, run_succ]
    rw [run_succ] at h
    cases hs : step s with
    | next u => rw [hs] at h; exact ih h
    | fault r => rw [hs] at h; cases h
    | refused r => rw [hs] at h; cases h

/-- What holds at the start and is kept by every step holds at the end of every run. -/
theorem run_induction {P : State → Prop} (hstep : ∀ s t, P s → step s = .next t → P t) {n : Nat} {s t : State} (hs : P s)
    (h : run n s = .next t) : P t := by
  induction n generalizing s with
  | zero => rw [run_zero] at h; cases h; exact hs
  | succ n ih =>
    rw [run_succ] at h
    cases hx : step s with
    | next u => rw [hx] at h; exact ih (hstep s u hs hx) h
    | fault r => rw [hx] at h; cases h
    | refused r => rw [hx] at h; cases h

theorem len_toNat (hs : HashState) : (len hs).toNat = hs.lenHi.toNat * 2 ^ 32 + hs.lenLo.toNat := by
  have h := BitVec.toNat_append hs.lenHi hs.lenLo
  rw [Nat.shiftLeft_eq, Nat.mul_comm, ← Nat.two_pow_add_eq_or_of_lt hs.lenLo.isLt, Nat.mul_comm] at h
  exact h

/-- The program of a concatenation of pseudo-instructions. -/
theorem expandAll_append (ps qs : List Pseudo) : expandAll (ps ++ qs) = expandAll ps ++ expandAll qs := by simp [expandAll]

/-! ### The source's feed call (R66) -/

theorem statusCode_statusWord (s : State) : statusCode (statusWord s) = s.code := by
  unfold statusCode statusWord
  generalize s.code = c
  revert c
  cases s.hash.corrupted <;> cases s.hash.computed <;> decide

theorem decode_feedWord : ∀ n : BitVec 3, n.toNat ≤ 4 → decode (feedWord n) = .ok (.feed n) := by decide

/-- The call's status over two parts of its replies: an error in either is an error of the call. -/
theorem callStatus_append (xs ys : List Reply) :
    callStatus (xs ++ ys) = if callStatus xs = codeStateError then codeStateError else callStatus ys := by
  have : codeSuccess ≠ codeStateError := by decide
  unfold callStatus
  simp only [List.filterMap_append, List.mem_append]
  by_cases h : codeStateError ∈ xs.filterMap replyCode <;> simp [h, this]

/-- What the call's replies for one group say is what its STATUS read says. -/
theorem callStatus_group (s : State) (h : s.code = codeStateError ∨ s.code = codeSuccess) (ws : List Reply)
    (hw : ws.filterMap replyCode = []) : callStatus (ws ++ [.read (statusWord s) .ok]) = s.code := by
  have : codeSuccess ≠ codeStateError := by decide
  unfold callStatus
  rw [List.filterMap_append, hw]
  rcases h with h | h <;> simp [replyCode, statusCode_statusWord, h, this.symm]

/-- The step of a FEED, of whatever count a word encodes. -/
theorem step_feed {s t : State} {n : BitVec 3} {rest : List HostEvent} (hn : n.toNat ≤ 4) (hr : s.resetHeld = false)
    (hp : s.pending = wr offCmd (feedWord n) :: rest) (h : exec (.feed n) { s with pending := rest } = .next t) :
    step s = .next (t.observe (.write .ok)) :=
  step_command hr hp (by rw [runCommand, decode_feedWord n hn]; exact h)

/-- The step of a read of STATUS. -/
theorem step_status {s : State} {rest : List HostEvent} (hr : s.resetHeld = false) (hp : s.pending = rd offStatus :: rest) :
    step s = .next (({ s with pending := rest } : State).observe (.read (statusWord s) .ok)) :=
  step_read hr hp (by decide)

end Sys2Proof.Safety
end

