-- ==== Sys2Proof/Tests/Slice0.lean ====
section
/-! SUPPORT. The model's own tests. Expected values come from spec/95_test_vectors.md (the vector is named in each comment) or from
the tables of the rule named; the witnesses at the end show for each statement a state and operands that meet its hypotheses. -/

namespace Sys2Proof.Tests

open Sys2Proof.Machine Sys2Proof.Safety

/-- The state after power-on reset, ST0 of 95_test_vectors.md, with DOUT at 0 as in P5's constructed state. -/
def st0 : State where
  hash := HashState.initial
  datain := 0
  dout := Vector.replicate 5 0
  code := 0
  pending := []
  replies := []
  resetHeld := false
  powerOns := 1

/-- `st0` with an engine state, DATAIN and events. -/
def st (hs : HashState) (v : Word) (es : List HostEvent) : State := { st0 with hash := hs, datain := v, pending := es }

/-- A check of the next state; false where there is none. -/
def onNext (x : Host.Outcome State Fault Refusal) (f : State → Bool) : Bool :=
  match x with
  | .next t => f t
  | .fault _ => false
  | .refused _ => false

/-- BUF of V-F7 and V-F9: 63 bytes 5a, and 00. -/
def buf5a : Vector Byte 64 := (Vector.replicate 64 0x5a).set 63 0x00

/-- The constructed engine state of V-F7 and V-F9: IDX = 63 and the given LEN. -/
def nearFull (hi lo : Word) : HashState := { HashState.initial with buf := buf5a, idx := 63, lenHi := hi, lenLo := lo }

/-- A finalized engine state, and a corrupted one. -/
def done : HashState := { HashState.initial with computed := true }
def broken : HashState := { HashState.initial with corrupted := true }

/-- The engine state after V-F1: "abc" fed. -/
def fedAbc : HashState :=
  { HashState.initial with buf := ((zeroBuf.set 0 0x61).set 1 0x62).set 2 0x63, idx := 3, lenLo := 0x18 }

/-! ### WellFormed: ill-formed terms are refused (R51) -/

theorem test_wellFormed_feed4 : (Instr.feed 4).wellFormed = true := by decide
theorem test_illFormed_feed5 : (Instr.feed 5).wellFormed = false := by decide
theorem test_illFormed_feed6 : (Instr.feed 6).wellFormed = false := by decide
theorem test_illFormed_feed7 : (Instr.feed 7).wellFormed = false := by decide

/-! ### Decoding: words written out from the fields of R49, RSV ++ COUNT ++ OP -/

theorem test_decode_reset : decode (0b0000000000000000000000000#25 ++ 0b000#3 ++ 0b0001#4) = .ok .reset := by decide
theorem test_decode_feed0 : decode (0b0000000000000000000000000#25 ++ 0b000#3 ++ 0b0010#4) = .ok (.feed 0) := by decide
theorem test_decode_feed3 : decode (0b0000000000000000000000000#25 ++ 0b011#3 ++ 0b0010#4) = .ok (.feed 3) := by decide
theorem test_decode_feed4 : decode 0x00000042 = .ok (.feed 4) := by decide
theorem test_decode_result : decode (0b0000000000000000000000000#25 ++ 0b000#3 ++ 0b0011#4) = .ok .result := by decide
/-- V-D1, V-D8, V-D9, V-D11 to V-D17. -/
theorem test_decode_illegal : ([0x00000000, 0x00000052, 0x00000072, 0x00000004, 0x0000000f, 0x00000011, 0x00000013,
    0x00000082, 0x80000001, 0xffffffff] : List Nat).map (decodeTableWord 32) = List.replicate 10 none := by decide
/-- R58. -/
theorem test_encode_words : encode .reset = 0x1 ∧ encode (.feed 3) = 0x32 ∧ encode .result = 0x3 := by decide

/-! ### Operands and flags -/

/-- V-N1 to V-N5. -/
theorem test_rotl : rotl 0x80000001 1 = 0x00000003 ∧ rotl 0x12345678 5 = 0x468acf02 ∧ rotl 0x12345678 30 = 0x048d159e ∧
    rotl 0xffffffff 5 = 0xffffffff ∧ rotl 0x00000001 31 = 0x80000000 := by decide
/-- V-N8, V-N9. -/
theorem test_bytes : be32 0x61 0x62 0x63 0x80 = 0x61626380 ∧ feedBytes 4 0x61626300 = [0x61, 0x62, 0x63, 0x00] := by decide
/-- V-FN2 and V-FN5: Ch, Parity, Maj. -/
theorem test_roundF : roundF 0 0x12345678 0x9abcdef0 0x0fedcba9 = 0x1ffddff1 ∧
    roundF 20 0x12345678 0x9abcdef0 0x0fedcba9 = 0x87654321 ∧ roundF 40 0x12345678 0x9abcdef0 0x0fedcba9 = 0x1abcdef8 ∧
    roundF 19 0xffffffff 0x00000000 0xffffffff = 0x00000000 ∧ roundF 59 0xffffffff 0x00000000 0xffffffff = 0xffffffff := by
  decide
/-- V-B5, V-B6, V-B7. -/
theorem test_bitCount_carry : bitCount (nearFull 0xfffffffe 0xfffffff8) = nearFull 0xffffffff 0 := by decide
theorem test_bitCount_last : bitCount (nearFull 0xffffffff 0xfffffff0) = nearFull 0xffffffff 0xfffffff8 := by decide
theorem test_bitCount_overflow :
    bitCount (nearFull 0xffffffff 0xfffffff8) = { nearFull 0 0 with corrupted := true } := by decide

/-! ### Compress -/

/-- BUF of V-C1, the padded block of "abc". -/
def bufAbc : Vector Byte 64 := (((zeroBuf.set 0 0x61).set 1 0x62).set 2 0x63 |>.set 3 0x80).set 63 0x18

/-- V-C1: W[16..18] and W[79]. -/
theorem test_schedule_abc : (schedule bufAbc).getD 16 0 = 0xc2c4c700 ∧ (schedule bufAbc).getD 17 0 = 0 ∧
    (schedule bufAbc).getD 18 0 = 0x30 ∧ (schedule bufAbc).getD 79 0 = 0x822e0879 := by decide +kernel
/-- V-C1: the digest of "abc". -/
theorem test_compress_abc :
    compressBlock iv bufAbc = #v[0xa9993e36, 0x4706816a, 0xba3e2571, 0x7850c26c, 0x9cd0d89d] := by decide +kernel
/-- V-C3: the ones block. -/
theorem test_compress_ones : compressBlock iv (Vector.replicate 64 0xff) =
    #v[0xbafbc2c8, 0x7c333226, 0x03f38e06, 0xc3e0f79c, 0x1f1b1475] := by decide +kernel

/-! ### Commands -/

/-- V-X3: RESET while corrupted keeps DATAIN. -/
theorem test_reset_corrupted : onNext (exec .reset (st broken 0x11223344 [])) (fun t =>
    decide (t.hash = HashState.initial ∧ t.code = 0 ∧ t.datain = 0x11223344)) = true := by decide
/-- V-F1, V-F5: FEED 3 takes the three high bytes of DATAIN and ignores the low one. -/
theorem test_feed_abc : onNext (exec (.feed 3) (st HashState.initial 0x616263ff [])) (fun t =>
    decide (t.hash = fedAbc ∧ t.code = 0)) = true := by decide
/-- V-F9: the overflow on the first byte of FEED 4; the block is compressed and the other bytes are dropped. -/
theorem test_feed_overflow : onNext (exec (.feed 4) (st (nearFull 0xffffffff 0xfffffff8) 0x11223344 [])) (fun t =>
    decide (statusWord t = 0x00000201 ∧ t.hash.lenLo = 0 ∧ t.hash.lenHi = 0 ∧ t.hash.idx = 0 ∧
      t.hash.h = #v[0x31c578d1, 0x5aa96c69, 0x63d1fa28, 0x903c057c, 0x87850e43] ∧ t.hash.buf = buf5a.set 63 0x11)) = true := by
  decide +kernel
/-- V-F7: a block boundary and a carry inside one FEED 2 (on the engine state alone). -/
theorem test_absorb_boundary : absorbAll [0x11, 0x22] (nearFull 0 0xfffffff8) = { nearFull 1 8 with
    buf := (buf5a.set 63 0x11).set 0 0x22, idx := 1,
    h := #v[0x31c578d1, 0x5aa96c69, 0x63d1fa28, 0x903c057c, 0x87850e43] } := by decide +kernel
/-- V-RES1, V-RES7: the digest of "abc" and the state after finalization. -/
theorem test_result_abc : onNext (exec .result (st fedAbc 0 [])) (fun t =>
    decide (t.dout = #v[0xa9993e36, 0x4706816a, 0xba3e2571, 0x7850c26c, 0x9cd0d89d] ∧ statusWord t = 0x00000100 ∧
      t.hash.buf = zeroBuf ∧ t.hash.lenLo = 0 ∧ t.hash.h = t.dout)) = true := by decide +kernel
/-- V-RES5, n = 56, and V-RES6: two compressions, and reading B of C1. -/
theorem test_pad_56 : (pad { HashState.initial with
      buf := Vector.ofFn (fun j => if j.val < 56 then 0x61 else 0x00), idx := 56, lenLo := 448 }).h =
    #v[0xc2db330f, 0x6083854c, 0x99d4b5bf, 0xb6e8f29f, 0x201be699] := by decide +kernel
/-- The reference digest of Safety.lean on "Hello, World!" (P3). -/
theorem test_sha1_hello : sha1 [0x48, 0x65, 0x6c, 0x6c, 0x6f, 0x2c, 0x20, 0x57, 0x6f, 0x72, 0x6c, 0x64, 0x21] =
    #v[0x0a0a9f2a, 0x67729425, 0x57ab5355, 0xd76af442, 0xf8f65e01] := by decide +kernel

/-! ### Steps -/

/-- V-D8: an ILLEGAL word. -/
theorem test_step_illegal : onNext (step (st done 7 [wr 0x00 0x52])) (fun t =>
    decide (statusWord t = 0x00000102 ∧ t.hash = done ∧ t.datain = 7 ∧ t.replies = [.write .ok])) = true := by decide
/-- V-A3, V-A6: a write to DATAIN, and an ignored write to STATUS. -/
theorem test_step_datain : onNext (step (st done 7 [wr 0x04 0x48656c6c])) (fun t =>
    decide (t.datain = 0x48656c6c ∧ t.hash = done)) = true := by decide
theorem test_step_status_ignored : onNext (step (st done 7 [wr 0x08 0xffffffff])) (fun t =>
    decide (t = { st done 7 [] with replies := [.write .ok] })) = true := by decide
/-- V-A13: STATUS after a finalized engine's STATE_ERROR; V-A5: a reserved offset. -/
theorem test_step_read_status : onNext (step { st done 7 [rd 0x08] with code := 1 }) (fun t =>
    decide (t.replies = [.read 0x00000101 .ok])) = true := by decide
theorem test_step_read_reserved : onNext (step (st done 7 [rd 0x3c])) (fun t => decide (t.replies = [.read 0 .ok])) = true := by
  decide
/-- V-A9, V-A11. -/
theorem test_step_byte_write : step (st done 7 [.write 0x00 1 0x01]) = .fault (.busError (.write .busError)) := rfl
theorem test_step_misaligned_read : step (st done 7 [.read 0x09 4]) = .fault (.busError (.read 0 .busError)) := rfl
/-- The very next step after `withFetchWord` runs the word, from reset. -/
theorem test_withFetchWord_result : onNext (step (State.reset.withFetchWord 32 0x3)) (fun t => t.hash.computed) = true := by
  decide +kernel
theorem test_withFetchWord_feed : onNext (step (State.reset.withFetchWord 32 0x42)) (fun t => decide (t.hash.idx = 4)) = true := by
  decide +kernel

/-- R66 on "Hello": a group of four and one of one with unused bytes 0, STATUS read after each FEED; and the empty call. -/
theorem test_feedCall_hello : expandAll (feedCall [0x48, 0x65, 0x6c, 0x6c, 0x6f]) =
    [wr 0x04 0x48656c6c, wr 0x00 0x42, rd 0x08, wr 0x04 0x6f000000, wr 0x00 0x12, rd 0x08] := by decide
theorem test_feedCall_empty : expandAll (feedCall []) = [wr 0x00 0x02, rd 0x08] := by decide
/-- R66: an error of the first FEED is the call's, whatever the last FEED returned; codes by R55. -/
theorem test_callStatus : callStatus [.write .ok, .read 0x00000201 .ok, .write .ok, .read 0x00000100 .ok] = 1 ∧
    callStatus [.write .ok, .read 0x00000100 .ok] = 0 := by decide

/-! ### Witnesses: each statement's hypotheses can be met, at the edges of their ranges -/

theorem witness_bytePacking : (3 : Nat) < 4 ∧ (7 : Nat) < 8 := by decide
theorem witness_feedOperand : (4 : Nat) ≤ 4 ∧ (0 : Nat) ≤ 4 := by decide
theorem witness_stepRuns : (st done 0 [wr 0x00 0x42]).resetHeld = false ∧
    (st done 0 [wr 0x00 0x42]).pending = .write 0x00 4 0x42 :: [] ∧ decode 0x42 = .ok (.feed 4) := by decide
theorem witness_illegal : (st done 0 [wr 0x00 0x52]).resetHeld = false ∧
    (st done 0 [wr 0x00 0x52]).pending = .write 0x00 4 0x52 :: [] ∧
    0x52 ∉ ([0x00000001, 0x00000002, 0x00000012, 0x00000022, 0x00000032, 0x00000042, 0x00000003] : List Word) := by decide
theorem witness_idle : st0.pending = [] := rfl
theorem witness_completes_read : (st done 0 [rd 0x3c]).pending = .read 0x3c 4 :: [] ∧ (st done 0 [rd 0x3c]).resetHeld = false ∧
    (0x3c : BitVec 6).toNat % 4 = 0 := by decide
theorem witness_completes_write : (st done 0 [wr 0x00 3]).pending = .write 0x00 4 3 :: [] ∧
    (st done 0 [wr 0x00 3]).resetHeld = false ∧ (0x00 : BitVec 6).toNat % 4 = 0 := by decide
theorem witness_completes_reset : (st done 0 [.assertReset]).pending = .assertReset :: [] ∧
    (st done 0 [.releaseReset]).pending = .releaseReset :: [] := by decide
theorem witness_powerOn : (st done 0 [.assertReset, .releaseReset]).pending = .assertReset :: .releaseReset :: [] := rfl
theorem witness_resetAgrees : ∃ p r, run 2 { st done 5 [] with pending := .assertReset :: .releaseReset :: [] } = .next p ∧
    step { st done 5 [] with resetHeld := false, pending := .write 0x00 4 0x00000001 :: [] } = .next r := ⟨_, _, rfl, rfl⟩
theorem witness_bitCount : (nearFull 0 0xfffffff0).lenLo ≠ 0xFFFFFFF8 ∧ (nearFull 0 0xfffffff0).lenLo.toNat % 8 = 0 ∧
    (nearFull 0xfffffffe 0xfffffff8).lenLo = 0xFFFFFFF8 ∧ (nearFull 0xfffffffe 0xfffffff8).lenHi ≠ 0xFFFFFFFF ∧
    (nearFull 0xffffffff 0xfffffff8).lenLo = 0xFFFFFFF8 ∧ (nearFull 0xffffffff 0xfffffff8).lenHi = 0xFFFFFFFF := by decide
theorem witness_absorb : ({ HashState.initial with idx := 62 } : HashState).idx.toNat < 63 ∧ (nearFull 0 0).idx.toNat ≤ 63 ∧
    (nearFull 0 0).idx.toNat = 63 := by decide
theorem witness_feedRefused : (4 : BitVec 3).toNat ≤ 4 ∧ (st done 0 []).hash.computed = true ∧
    (st broken 0 []).hash.corrupted = true := by decide
theorem witness_feedZero : Accepting st0.hash ∧ (st done 0 []).hash.computed = true ∧
    (st broken 0 []).hash.corrupted = true := by decide

/-- LEN = 2^64 − 40, IDX = 59: FEED 4 just fits. -/
def lastFit : HashState := { HashState.initial with lenHi := 0xffffffff, lenLo := 0xffffffd8, idx := 59 }

/-- LEN = 2^64 − 32, IDX = 60: byte 4 overflows. -/
def fourthOverflows : HashState := { HashState.initial with lenHi := 0xffffffff, lenLo := 0xffffffe0, idx := 60 }

theorem witness_feedAbsorbs : (4 : BitVec 3).toNat ≤ 4 ∧ Accepting lastFit ∧ OpenInv lastFit ∧
    (len lastFit).toNat + 8 * (4 : BitVec 3).toNat < 2 ^ 64 := by decide
theorem witness_feedStops_first : (1 : BitVec 3).toNat ≤ 4 ∧ Accepting (nearFull 0xffffffff 0xfffffff8) ∧
    OpenInv (nearFull 0xffffffff 0xfffffff8) ∧ 1 ≤ (1 : BitVec 3).toNat ∧
    (len (nearFull 0xffffffff 0xfffffff8)).toNat = 2 ^ 64 - 8 * 1 := by decide
theorem witness_feedStops_fourth : (4 : BitVec 3).toNat ≤ 4 ∧ Accepting fourthOverflows ∧ OpenInv fourthOverflows ∧
    4 ≤ (4 : BitVec 3).toNat ∧ (len fourthOverflows).toNat = 2 ^ 64 - 8 * 4 := by decide
theorem witness_feedCountAboveFour : 4 < (5 : BitVec 3).toNat := by decide
theorem witness_feedFrame : ¬ Accepting done ∧ ¬ Accepting broken := by decide
theorem witness_resultFails : (st broken 0 []).hash.corrupted = true := rfl
theorem witness_firstResult : Accepting (st (nearFull 0 0) 0 []).hash := by decide
theorem witness_successfulResult : st0.hash.corrupted = false ∧ (st done 0 []).hash.corrupted = false := by decide
theorem witness_repeatedResult : (st done 0 []).hash.computed = true ∧ (st done 0 []).hash.corrupted = false := by decide
theorem witness_repeatedResult_chain : Accepting st0.hash ∧ (0 : BitVec 3).toNat ≤ 4 ∧
    ∃ t u v, exec .result st0 = .next t ∧ exec (.feed 0) t = .next u ∧ exec .result u = .next v := by
  refine ⟨by decide, by decide, ?_⟩
  obtain ⟨t, ht⟩ := exec_completes .result st0
  obtain ⟨u, hu⟩ := exec_completes (.feed 0) t
  obtain ⟨v, hv⟩ := exec_completes .result u
  exact ⟨t, u, v, ht, hu, hv⟩
theorem witness_pad : ({ HashState.initial with idx := 55 } : HashState).idx.toNat ≤ 55 ∧
    56 ≤ ({ HashState.initial with idx := 56 } : HashState).idx.toNat ∧ (nearFull 0 0).idx.toNat ≤ 63 := by decide
theorem witness_rotl : (0 : Nat) < 31 ∧ (31 : Nat) < 32 ∧ (0 : Nat) < 1 := by decide
theorem witness_schedule : (0 : Nat) < 16 ∧ (15 : Nat) < 16 ∧ (16 : Nat) ≤ 16 ∧ (79 : Nat) < 80 := by decide
theorem witness_roundFunctions : (19 : Nat) ≤ 19 ∧ ((20 : Nat) ≤ 20 ∧ (39 : Nat) ≤ 39) ∧ ((40 : Nat) ≤ 40 ∧ (59 : Nat) ≤ 59) ∧
    ((60 : Nat) ≤ 60 ∧ (79 : Nat) < 80) := by decide
theorem witness_status_result : ∃ t, exec .result st0 = .next t ∧ t.code = 0 := ⟨_, rfl, rfl⟩
theorem witness_status_feed : Accepting (nearFull 0xffffffff 0xfffffff8) ∧
    onNext (exec (.feed 1) (st (nearFull 0xffffffff 0xfffffff8) 0 [])) (fun t => decide (t.code = 1)) = true := by decide +kernel
theorem witness_status_read : (st done 0 [rd 0x08]).resetHeld = false ∧
    (st done 0 [rd 0x08]).pending = .read 0x08 4 :: [] := by decide
theorem witness_status_code : ∃ t, runCommand 0x00000052 st0 = .next t := runCommand_completes _ _
theorem witness_status_write : (st done 0 [wr 0x08 5]).resetHeld = false ∧
    (st done 0 [wr 0x08 5]).pending = .write 0x08 4 5 :: [] := by decide
theorem witness_read : (st done 0 [rd 0x20]).resetHeld = false ∧ (st done 0 [rd 0x20]).pending = .read 0x20 4 :: [] ∧
    (0x20 : BitVec 6).toNat % 4 = 0 ∧ (0x20 : BitVec 6).toNat = 0x10 + 4 * 4 ∧ (0x10 : BitVec 6).toNat = 0x10 + 4 * 0 ∧
    0x24 ≤ (0x24 : BitVec 6).toNat ∧ 0x24 ≤ (0x3c : BitVec 6).toNat := by decide
theorem witness_ignored_write : (st done 0 [wr 0x3c 5]).resetHeld = false ∧ (0x3c : BitVec 6).toNat % 4 = 0 ∧
    (0x3c : BitVec 6) ≠ 0x00 ∧ (0x3c : BitVec 6) ≠ 0x04 ∧ (st done 0 [wr 0x3c 5]).pending = .write 0x3c 4 5 :: [] := by decide
theorem witness_ignored_read : (st done 0 [rd 0x0c]).resetHeld = false ∧ (0x0c : BitVec 6).toNat % 4 = 0 ∧
    (st done 0 [rd 0x0c]).pending = .read 0x0C 4 :: [] := by decide
theorem witness_datainWrite : (st done 0 [wr 0x04 5]).resetHeld = false ∧
    (st done 0 [wr 0x04 5]).pending = .write 0x04 4 5 :: [] := by decide
theorem witness_busError : (st done 0 [.read 0x3f 4]).resetHeld = false ∧ (0x3f : BitVec 6).toNat % 4 ≠ 0 ∧
    (st done 0 [.read 0x3f 4]).pending = .read 0x3f 4 :: [] ∧ (8 : Nat) ≠ 4 ∧
    (st done 0 [.write 0x00 8 1]).pending = .write 0x00 8 1 :: [] := by decide
theorem witness_duringReset : ({ st done 0 [rd 0x00] with resetHeld := true } : State).resetHeld = true ∧
    (st done 0 [rd 0x00]).pending = .read 0x00 4 :: [] ∧ (st done 0 [wr 0x00 1]).pending = .write 0x00 4 1 :: [] := by decide
theorem witness_window_below : windowOffset (Config.base + 64) = none := by simp [windowOffset]
theorem witness_digestAll : st0.resetHeld = false := rfl
theorem witness_nonCommand : (∃ t, step (st done 0 [wr 0x04 5]) = .next t ∧ t.datain ≠ (st done 0 [wr 0x04 5]).datain) ∧
    commandOf (st done 0 [wr 0x04 5]) = none ∧ ¬ powersOn (st done 0 [wr 0x04 5]) :=
  ⟨⟨_, rfl, by decide⟩, by decide, by simp [powersOn, st, st0]⟩
theorem witness_powersOn : powersOn { st done 5 [.releaseReset] with resetHeld := true } := ⟨rfl, rfl⟩
theorem witness_clearsCorrupted : ∃ t, step (st broken 0 [wr 0x00 1]) = .next t ∧
    (st broken 0 [wr 0x00 1]).hash.corrupted = true ∧ t.hash.corrupted = false := ⟨_, rfl, rfl, rfl⟩
theorem witness_clearsComputed : ∃ t, step (st done 0 [wr 0x00 1]) = .next t ∧
    (st done 0 [wr 0x00 1]).hash.computed = true ∧ t.hash.computed = false := ⟨_, rfl, rfl, rfl⟩
theorem witness_setsCorrupted : (nearFull 0xffffffff 0xfffffff8).corrupted = false ∧
    onNext (step (st (nearFull 0xffffffff 0xfffffff8) 0 [wr 0x00 0x12])) (fun t => t.hash.corrupted) = true := by decide +kernel
theorem witness_setsComputed : ∃ t, step (st HashState.initial 0 [wr 0x00 3]) = .next t ∧
    HashState.initial.computed = false ∧ t.hash.computed = true := ⟨_, rfl, rfl, rfl⟩
theorem witness_writesDout : ∃ t, step (st done 0 [wr 0x00 3]) = .next t ∧ t.dout ≠ (st done 0 [wr 0x00 3]).dout :=
  ⟨_, rfl, by decide⟩
theorem witness_sticky : commandOf (st broken 0 [wr 0x00 3]) = some 3 ∧ (st broken 0 [wr 0x00 3]).hash.corrupted = true ∧
    commandOf (st broken 0 [wr 0x00 1]) = some 1 ∧ commandOf (st done 0 [wr 0x00 0x42]) = some (feedWord 4) := by decide
theorem witness_sticky_step : (∃ t, step (st broken 0 [rd 0x08]) = .next t) ∧ (st broken 0 [rd 0x08]).hash.corrupted = true ∧
    commandOf (st broken 0 [rd 0x08]) ≠ some 1 ∧ ¬ powersOn (st broken 0 [rd 0x08]) :=
  ⟨⟨_, rfl⟩, rfl, by decide, by simp [powersOn, st, st0]⟩
theorem witness_fourCauses : HashInv done ∧ HashInv broken ∧ HashInv (nearFull 0xffffffff 0xfffffff8) ∧
    HashInv fourthOverflows := ⟨by decide, by decide, by decide, by decide⟩
theorem witness_fourCauses_overflow : (4 : BitVec 3).toNat ≤ 4 ∧ Accepting fourthOverflows ∧ 4 ≤ (4 : BitVec 3).toNat ∧
    (len fourthOverflows).toNat = 2 ^ 64 - 8 * 4 ∧ ∃ t, exec (.feed 4) (st fourthOverflows 0 []) = .next t :=
  ⟨by decide, by decide, by decide, by decide, exec_completes _ _⟩
theorem witness_fourCauses_next : (∃ t, exec (.feed 0) (st done 0 []) = .next t ∧ t.code = 1) ∧
    (∃ t, exec .result (st broken 0 []) = .next t ∧ t.code = 1) := ⟨⟨_, rfl, rfl⟩, ⟨_, rfl, rfl⟩⟩

/-- A finalized machine: DOUT = H. -/
def delivered : State := { st done 0 [rd 0x10] with dout := iv }

theorem witness_frozen : EngineInv delivered ∧ delivered.hash.computed = true ∧ ∃ t, step delivered = .next t :=
  ⟨by decide, rfl, _, rfl⟩
theorem witness_keepsInvariants : EngineInv (st fourthOverflows 0 [wr 0x00 0x42]) ∧
    ∃ t, step (st fourthOverflows 0 [wr 0x00 0x42]) = .next t := by
  refine ⟨by decide, ?_⟩
  obtain ⟨t, ht⟩ := runCommand_completes 0x42 (st fourthOverflows 0 [])
  exact ⟨_, step_command (s := st fourthOverflows 0 [wr 0x00 0x42]) rfl rfl ht⟩
theorem witness_openMessage : ([] : List Byte).length < 2 ^ 61 ∧ [(0x61 : Byte)].length < 2 ^ 61 := by decide
theorem witness_feedCall : st0.resetHeld = false ∧ Accepting st0.hash ∧ (st done 0 []).resetHeld = false ∧
    ¬ Accepting (st done 0 []).hash ∧ ¬ Accepting (st broken 0 []).hash := by decide
theorem witness_feedCallError : ∃ t, runAll (load (st broken 0 []) (feedCall [])) = .next t ∧ t.code = 1 := ⟨_, rfl, rfl⟩
theorem witness_feedCallError_overflow : (st (nearFull 0xffffffff 0xfffffff8) 0 []).resetHeld = false ∧
    onNext (runAll (load (st (nearFull 0xffffffff 0xfffffff8) 0 []) (feedCall [0x11]))) (fun t => decide (t.code = 1)) = true := by
  decide +kernel

/-- Two cuts of "abc" (V-F1, V-F4). -/
def cutOnce : List (Word × BitVec 3) := [(0x61626300, 3)]
def cutThrice : List (Word × BitVec 3) := [(0x61000000, 1), (0x62000000, 1), (0x63000000, 1)]

theorem witness_chunking : st0.resetHeld = false ∧ Accepting st0.hash ∧ (∀ c ∈ cutOnce, c.2.toNat ≤ 4) ∧
    (∀ c ∈ cutThrice, c.2.toNat ≤ 4) ∧ chunkBytes cutOnce = chunkBytes cutThrice :=
  ⟨rfl, ⟨rfl, rfl⟩, by simp [cutOnce], by simp [cutThrice], rfl⟩
theorem witness_digest : st0.resetHeld = false ∧ [(0x61 : Byte), 0x62, 0x63].length < 2 ^ 61 := by decide
theorem witness_reads : (st (nearFull 0 0) 5 [rd 0x08]).resetHeld = (st HashState.initial 5 [rd 0x08]).resetHeld ∧
    (nearFull 0 0).computed = HashState.initial.computed ∧ (nearFull 0 0).corrupted = HashState.initial.corrupted ∧
    nearFull 0 0 ≠ HashState.initial ∧ (st (nearFull 0 0) 5 [rd 0x08]).pending = .read 0x08 4 :: [] := by decide +kernel
theorem witness_unobservable : (st broken 0 [wr 0x00 3, rd 0x10]).hash.corrupted = true := rfl
theorem witness_stale : (HashState.initial).idx.toNat ≤ 63 ∧
    AgreeButStale HashState.initial { HashState.initial with buf := Vector.replicate 64 0xff } :=
  ⟨by decide, rfl, fun j _ h => absurd h (by simp)⟩

end Sys2Proof.Tests
end

section
/-! The bytes of a word (R11): the bits of `byteOf`, and `be32` as its inverse in both directions. -/

namespace Sys2Proof.Machine

theorem getLsbD_byteOf (w : Word) (k : Nat) {i : Nat} (hi : i < 8) :
    (byteOf k w).getLsbD i = w.getLsbD (24 - 8 * k + i) := by
  simp [byteOf, hi]

/-! The four bytes of `be32`: its definition is an append of 8-bit parts, and the library says what a slice of an append is
where the slice lies inside one side. -/

@[simp] theorem byteOf_zero_be32 (b0 b1 b2 b3 : Byte) : byteOf 0 (be32 b0 b1 b2 b3) = b0 :=
  (BitVec.extractLsb'_append_eq_of_le (by decide)).trans <|
    (BitVec.extractLsb'_append_eq_of_le (by decide)).trans BitVec.extractLsb'_append_eq_left

@[simp] theorem byteOf_one_be32 (b0 b1 b2 b3 : Byte) : byteOf 1 (be32 b0 b1 b2 b3) = b1 :=
  (BitVec.extractLsb'_append_eq_of_le (by decide)).trans <|
    (BitVec.extractLsb'_append_eq_of_le (by decide)).trans BitVec.extractLsb'_append_eq_right

@[simp] theorem byteOf_two_be32 (b0 b1 b2 b3 : Byte) : byteOf 2 (be32 b0 b1 b2 b3) = b2 :=
  (BitVec.extractLsb'_append_eq_of_le (by decide)).trans BitVec.extractLsb'_append_eq_right

@[simp] theorem byteOf_three_be32 (b0 b1 b2 b3 : Byte) : byteOf 3 (be32 b0 b1 b2 b3) = b3 :=
  BitVec.extractLsb'_append_eq_right

/-- A word is determined by its four bytes: its bit `i` is bit `i % 8` of byte `3 − i / 8`. -/
theorem eq_of_byteOf_eq {v w : Word} (h : ∀ k < 4, byteOf k v = byteOf k w) : v = w := by
  apply BitVec.eq_of_getLsbD_eq
  intro i hi
  have hmod : i % 8 < 8 := Nat.mod_lt i (by decide)
  have hpos : 24 - 8 * (3 - i / 8) + i % 8 = i := by omega
  calc v.getLsbD i
      = (byteOf (3 - i / 8) v).getLsbD (i % 8) := by rw [getLsbD_byteOf _ _ hmod, hpos]
    _ = (byteOf (3 - i / 8) w).getLsbD (i % 8) := by rw [h _ (by omega)]
    _ = w.getLsbD i := by rw [getLsbD_byteOf _ _ hmod, hpos]

@[simp] theorem be32_byteOf (w : Word) : be32 (byteOf 0 w) (byteOf 1 w) (byteOf 2 w) (byteOf 3 w) = w := by
  apply eq_of_byteOf_eq
  intro k hk
  match k, hk with
  | 0, _ | 1, _ | 2, _ | 3, _ => simp

/-- Settles O5: the bits of `byteOf`, the bytes of `be32`, and a word packed again from its bytes. -/
theorem bytePackingIsBigEndian : Obligations.BytePackingIsBigEndian := by
  unfold Obligations.BytePackingIsBigEndian
  refine ⟨?bits, ?packed, be32_byteOf⟩
  case bits => exact fun w k i _ hi => getLsbD_byteOf w k hi
  case packed =>
    exact fun b0 b1 b2 b3 => ⟨rfl, byteOf_zero_be32 b0 b1 b2 b3, byteOf_one_be32 b0 b1 b2 b3,
      byteOf_two_be32 b0 b1 b2 b3, byteOf_three_be32 b0 b1 b2 b3⟩

end Sys2Proof.Machine
end

section
/-! The register window (20_memory.md R37, R38): what an access outside the aligned 32-bit ones does, and the offsets that read
as 0. -/

namespace Sys2Proof.Machine

/-! ### Accesses that are not performed (R37) -/

section
variable {off : BitVec 6} {size : Nat} {s : State}

theorem busRead_bad (h : size ≠ 4 ∨ off.toNat % 4 ≠ 0) : busRead off size s = (0, .busError) :=
  if_pos (badAccess_true.2 h)

theorem runRead_bad (h : size ≠ 4 ∨ off.toNat % 4 ≠ 0) :
    runRead off size s = .fault (.busError (.read 0 .busError)) := by
  simp only [runRead, busRead_bad h]

theorem runWrite_bad {v : Word} (h : size ≠ 4 ∨ off.toNat % 4 ≠ 0) :
    runWrite off size v s = .fault (.busError (.write .busError)) :=
  if_pos (badAccess_true.2 h)

/-! With reset released, a step on an access of any offset and size is that access. -/

variable {rest : List HostEvent}

theorem step_eq_runRead (hr : s.resetHeld = false) (hp : s.pending = .read off size :: rest) :
    step s = runRead off size { s with pending := rest } := by
  simp [step_cons hp, runEvent, hr]

theorem step_eq_runWrite {v : Word} (hr : s.resetHeld = false) (hp : s.pending = .write off size v :: rest) :
    step s = runWrite off size v { s with pending := rest } := by
  simp [step_cons hp, runEvent, hr]

end

/-- Settles O37: the step is the bus access, and that access is answered with a bus error. -/
theorem unalignedOrNarrowAccessIsBusError : Obligations.UnalignedOrNarrowAccessIsBusError := by
  unfold Obligations.UnalignedOrNarrowAccessIsBusError
  intro s off size v rest hr hbad
  refine ⟨busRead_bad hbad, ?read, ?write⟩
  case read => exact fun hp => (step_eq_runRead hr hp).trans (runRead_bad hbad)
  case write => exact fun hp => (step_eq_runWrite hr hp).trans (runWrite_bad hbad)

/-! ### Offsets that read as 0 (R38) -/

/-- CMD, the reserved word at 0x0C, and every offset above DIGEST4. -/
theorem readRegister_eq_zero {off : BitVec 6} (s : State) (h : off = 0x00 ∨ off = 0x0C ∨ 0x24 ≤ off.toNat) :
    readRegister off s = 0 := by
  obtain rfl | rfl | habove := h
  · rfl
  · rfl
  · have hdatain : off ≠ offDatain := by rintro rfl; exact absurd habove (by decide)
    have hstatus : off ≠ offStatus := by rintro rfl; exact absurd habove (by decide)
    have hdigest : ¬(0x10 ≤ off.toNat ∧ off.toNat ≤ 0x20) := by omega
    rw [readRegister, if_neg hdatain, if_neg hstatus, if_neg hdigest]

/-- Settles O35: a write to neither CMD nor DATAIN is ignored, and the offsets without a readable register read as 0. -/
theorem ignoredAccessesChangeNothing : Obligations.IgnoredAccessesChangeNothing := by
  unfold Obligations.IgnoredAccessesChangeNothing
  intro s off v rest hr haligned
  refine ⟨?write, ?read⟩
  case write => exact fun hcmd hdatain hp => step_ignored hr hp haligned hcmd hdatain
  case read =>
    intro hzero hp
    rw [step_read hr hp haligned, readRegister_eq_zero _ hzero]
    rfl

end Sys2Proof.Machine
end

section
/-! The command words (30_encoding.md R49 to R54): what the decoder accepts, as the encodings of the seven legal commands, and
what every other word does. -/

namespace Sys2Proof

open Sys2Proof.Laws

/-- A word is its three fields put together (R49). -/
theorem append_fields_eq (w : Word) : rsvField w ++ countField w ++ opField w = w :=
  calc rsvField w ++ countField w ++ opField w
      = w.extractLsb' 4 28 ++ opField w := by
        congr 1; exact BitVec.extractLsb'_append_extractLsb'_eq_extractLsb' rfl
    _ = w.extractLsb' 0 32 := BitVec.extractLsb'_append_extractLsb'_eq_extractLsb' rfl
    _ = w := BitVec.extractLsb'_eq_self

/-- Only the encoding of a command has RSV at 0 and the command's COUNT and OP. -/
theorem eq_encode_of_fields {w : Word} {i : Instr} (hrsv : rsvField w = 0) (hcount : countField w = countOf i)
    (hop : opField w = opOf i) : w = encode i := by
  rw [← append_fields_eq w, hrsv, hcount, hop, encode]

theorem decode_encode {i : Instr} (h : i.wellFormed = true) : decode (encode i) = .ok i := by
  cases i with
  | reset => decide
  | feed count =>
    obtain ⟨hrsv, hcount, hop⟩ := EncodedFields.feed count
    have hlegal : count.toNat ≤ 4 := of_decide_eq_true h
    simp [decode, hrsv, hcount, hop, opOf, countOf, hlegal]
  | result => decide

theorem wellFormed_and_eq_encode_of_decode {w : Word} {i : Instr} (h : decode w = .ok i) :
    i.wellFormed = true ∧ w = encode i := by
  unfold decode at h
  split at h
  · cases h
  next hrsv =>
  replace hrsv : rsvField w = 0 := not_not.1 hrsv
  split at h
  next hop =>
    split at h
    next hcount => cases h; exact ⟨rfl, eq_encode_of_fields hrsv hcount hop⟩
    · cases h
  split at h
  next hop =>
    split at h
    next hlegal => cases h; exact ⟨decide_eq_true hlegal, eq_encode_of_fields hrsv rfl hop⟩
    · cases h
  split at h
  next hop =>
    split at h
    next hcount => cases h; exact ⟨rfl, eq_encode_of_fields hrsv hcount hop⟩
    · cases h
  · cases h

/-- The decoder accepts exactly the encodings of well-formed commands, each as its command. -/
theorem decode_eq_ok_iff {w : Word} {i : Instr} : decode w = .ok i ↔ i.wellFormed = true ∧ w = encode i := by
  refine ⟨wellFormed_and_eq_encode_of_decode, ?_⟩
  rintro ⟨hwf, rfl⟩
  exact decode_encode hwf

/-- The commands the encoding admits, in the order of R53's table. -/
def legalCommands : List Instr := [.reset, .feed 0, .feed 1, .feed 2, .feed 3, .feed 4, .result]

theorem mem_legalCommands_iff {i : Instr} : i ∈ legalCommands ↔ i.wellFormed = true := by
  cases i with
  | reset => decide
  | feed count => revert count; decide
  | result => decide

/-- Settles O2: R53's table pairs each legal command with its encoding. -/
theorem legalWordsAreExactlySeven : Obligations.LegalWordsAreExactlySeven := by
  unfold Obligations.LegalWordsAreExactlySeven
  intro w i
  change decode w = .ok i ↔ (w, i) ∈ legalCommands.map fun j => (encode j, j)
  rw [decode_eq_ok_iff, ← mem_legalCommands_iff, List.mem_map]
  constructor
  · rintro ⟨hi, rfl⟩
    exact ⟨i, hi, rfl⟩
  · rintro ⟨j, hj, heq⟩
    cases heq
    exact ⟨hj, rfl⟩

namespace Machine

/-- A word that encodes no legal command runs as ILLEGAL (R54). -/
theorem runCommand_eq_execIllegal {w : Word} (s : State) (h : w ∉ legalCommands.map encode) :
    runCommand w s = execIllegal s := by
  unfold runCommand
  split
  next i hdecode =>
    obtain ⟨hwf, rfl⟩ := decode_eq_ok_iff.1 hdecode
    exact absurd (List.mem_map_of_mem (mem_legalCommands_iff.2 hwf)) h
  · rfl

/-- Settles O8: the seven words are the encodings of the legal commands, so the write runs ILLEGAL. -/
theorem illegalWordChangesOnlyCode : Obligations.IllegalWordChangesOnlyCode := by
  unfold Obligations.IllegalWordChangesOnlyCode
  intro s w rest hr hp hw
  exact step_command hr hp (runCommand_eq_execIllegal _ hw)

end Machine

end Sys2Proof
end

section
/-! The STATUS word (30_encoding.md R55): its bits, and what each command leaves in it. -/

namespace Sys2Proof.Machine

open Sys2Proof.Safety

theorem getLsbD_statusWord_eight (s : State) : (statusWord s).getLsbD 8 = s.hash.computed := by
  simp only [statusWord, BitVec.getLsbD_setWidth, BitVec.getLsbD_append]
  simp

theorem getLsbD_statusWord_nine (s : State) : (statusWord s).getLsbD 9 = s.hash.corrupted := by
  simp only [statusWord, BitVec.getLsbD_setWidth, BitVec.getLsbD_append]
  simp

theorem getLsbD_statusWord_of_ten_le (s : State) {i : Nat} (h : 10 ≤ i) : (statusWord s).getLsbD i = false := by
  rw [statusWord, BitVec.getLsbD_setWidth, BitVec.getLsbD_of_ge _ i h, Bool.and_false]

theorem getLsbD_statusWord_of_between (s : State) {i : Nat} (h2 : 2 ≤ i) (h8 : i < 8) :
    (statusWord s).getLsbD i = false := by
  have hcode : ¬ i < 2 := by omega
  have hzero : i - 2 < 6 := by omega
  simp only [statusWord, BitVec.getLsbD_setWidth, BitVec.getLsbD_append, if_neg hcode, if_pos hzero]
  simp

/-- A field whose bits are all 0 is 0. -/
theorem extractLsb'_eq_zero {w : Word} {start len : Nat} (h : ∀ i < len, w.getLsbD (start + i) = false) :
    w.extractLsb' start len = 0 := by
  refine BitVec.eq_of_getLsbD_eq fun i hi => ?_
  rw [BitVec.getLsbD_extractLsb', h i hi, Bool.and_false]
  exact BitVec.getLsbD_zero.symm

theorem exec_code_ne_three {i : Instr} {s t : State} (h : exec i s = .next t) : t.code ≠ 3 := by
  cases i with
  | reset => rw [execReset_eq] at h; cases h; simp [codeSuccess]
  | feed n =>
    obtain ⟨-, rfl⟩ | ⟨-, -, rfl⟩ | ⟨-, -, -, rfl⟩ := execFeed_cases h
    · simp [codeIllegal]
    · simp [codeStateError]
    · dsimp only; split <;> simp [codeStateError, codeSuccess]
  | result =>
    obtain ⟨-, rfl⟩ | ⟨-, -, rfl⟩ | ⟨-, -, rfl⟩ := execResult_cases h <;> simp [codeStateError, codeSuccess]

theorem runCommand_code_ne_three {w : Word} {s t : State} (h : runCommand w s = .next t) : t.code ≠ 3 := by
  unfold runCommand at h
  split at h
  · exact exec_code_ne_three h
  · rw [execIllegal_eq] at h; cases h; simp [codeIllegal]

/-- A RESULT that succeeds leaves a finalized engine that is not corrupted. -/
theorem execResult_success_flags {s t : State} (h : exec .result s = .next t) (hcode : t.code = codeSuccess) :
    t.hash.corrupted = false ∧ t.hash.computed = true := by
  obtain ⟨-, rfl⟩ | ⟨hcorrupted, hcomputed, rfl⟩ | ⟨hcorrupted, -, rfl⟩ := execResult_cases h
  · exact absurd hcode (by simp [codeStateError, codeSuccess])
  · exact ⟨hcorrupted, hcomputed⟩
  · exact ⟨(finalize_corrupted _).trans hcorrupted, finalize_computed _⟩

/-- An accepting engine answers a FEED with STATE_ERROR only where the FEED overflows the bit counter. -/
theorem execFeed_stateError_flags {s t : State} {n : BitVec 3} (ha : Accepting s.hash) (h : exec (.feed n) s = .next t)
    (hcode : t.code = codeStateError) : t.hash.corrupted = true ∧ t.hash.computed = false := by
  obtain ⟨hcomputed, hcorrupted⟩ := ha
  obtain ⟨-, rfl⟩ | ⟨-, hflag, rfl⟩ | ⟨-, -, -, rfl⟩ := execFeed_cases h
  · exact absurd hcode (by simp [codeStateError, codeIllegal])
  · simp [hcomputed, hcorrupted] at hflag
  · refine ⟨?_, (absorbAll_computed _ _).trans hcomputed⟩
    by_contra hno
    simp [hno, codeSuccess, codeStateError] at hcode

/-- Settles O33: the bits of `statusWord`, the step of a read and of a write at 0x08, and the flags each command leaves. -/
theorem statusWordLayout : Obligations.StatusWordLayout := by
  unfold Obligations.StatusWordLayout
  refine ⟨fun s => ⟨?above, ?bit9, ?bit8, ?between, ?code⟩, ?read, ?never3, ?powerOn, ?result, ?overflow, ?write⟩
  case above => exact extractLsb'_eq_zero fun i _ => getLsbD_statusWord_of_ten_le s (Nat.le_add_right 10 i)
  case bit9 => exact getLsbD_statusWord_nine s
  case bit8 => exact getLsbD_statusWord_eight s
  case between =>
    exact extractLsb'_eq_zero fun i hi => getLsbD_statusWord_of_between s (Nat.le_add_right 2 i) (by omega)
  case code => exact statusCode_statusWord s
  case read => exact fun s rest hr hp => step_status hr hp
  case never3 => exact fun s t w h => runCommand_code_ne_three h
  case powerOn => decide
  case result =>
    intro s t h hcode
    obtain ⟨hcorrupted, hcomputed⟩ := execResult_success_flags h hcode
    rw [statusWord, hcorrupted, hcomputed, hcode]
    rfl
  case overflow =>
    intro s t n ha h hcode
    obtain ⟨hcorrupted, hcomputed⟩ := execFeed_stateError_flags ha h hcode
    rw [statusWord, hcorrupted, hcomputed, hcode]
    rfl
  case write => exact fun s v rest hr hp => step_ignored hr hp (by decide) (by decide) (by decide)

end Sys2Proof.Machine
end

section
/-! The RESET command (40_reset.md R59). -/

namespace Sys2Proof.Machine

/-- Settles O11: 0x00000001 is the encoding of RESET, 0x00000011 has its OP with COUNT = 1, and the state RESET answers is that
of `execReset_eq`, with the fields of `HashState.initial` written out. -/
theorem resetReinitialisesEngine : Obligations.ResetReinitialisesEngine := by
  unfold Obligations.ResetReinitialisesEngine
  refine ⟨?word, ?illegal, ?effect⟩
  case word => exact decode_encode (i := .reset) rfl
  case illegal => decide
  case effect => exact execReset_eq

end Sys2Proof.Machine
end

section
/-! The bit counter and one byte (41_feed.md R63, R64). -/

namespace Sys2Proof.Machine

open Sys2Proof.Safety

/-! ### `BitCount()` -/

/-- The one value of LEN_LO that carries into LEN_HI. -/
theorem word_add_eight_eq_zero_iff {x : Word} : x + 8 = 0 ↔ x = 0xFFFFFFF8 := by bv_omega

/-- The one value of LEN_HI that carries out of LEN. -/
theorem word_add_one_eq_zero_iff {x : Word} : x + 1 = 0 ↔ x = 0xFFFFFFFF := by bv_omega

section
variable {hs : HashState}

theorem bitCount_no_carry (hlo : hs.lenLo ≠ 0xFFFFFFF8) : bitCount hs = { hs with lenLo := hs.lenLo + 8 } :=
  if_neg (word_add_eight_eq_zero_iff.not.2 hlo)

theorem bitCount_carry (hlo : hs.lenLo = 0xFFFFFFF8) (hhi : hs.lenHi ≠ 0xFFFFFFFF) :
    bitCount hs = { hs with lenLo := 0, lenHi := hs.lenHi + 1 } := by
  rw [bitCount, if_pos (word_add_eight_eq_zero_iff.2 hlo), if_neg (word_add_one_eq_zero_iff.not.2 hhi),
    word_add_eight_eq_zero_iff.2 hlo]

theorem bitCount_overflow (hlo : hs.lenLo = 0xFFFFFFF8) (hhi : hs.lenHi = 0xFFFFFFFF) :
    bitCount hs = { hs with lenLo := 0, lenHi := 0, corrupted := true } := by
  rw [bitCount, if_pos (word_add_eight_eq_zero_iff.2 hlo), if_pos (word_add_one_eq_zero_iff.2 hhi),
    word_add_eight_eq_zero_iff.2 hlo, word_add_one_eq_zero_iff.2 hhi]

/-- LEN is a multiple of 8 where LEN_LO is, so that LEN_LO + 8 is 0 wherever it leaves 32 bits. -/
theorem len_bitCount_toNat (h8 : hs.lenLo.toNat % 8 = 0) :
    (len (bitCount hs)).toNat = ((len hs).toNat + 8) % 2 ^ 64 := by
  rw [len_toNat, len_toNat, bitCount_lenLo, bitCount_lenHi]
  split
  · bv_omega
  · bv_omega

theorem len_eq_max_iff : (len hs).toNat = 2 ^ 64 - 8 ↔ hs.lenLo = 0xFFFFFFF8 ∧ hs.lenHi = 0xFFFFFFFF := by
  rw [len_toNat]
  bv_omega

theorem bitCount_corrupted_iff :
    (bitCount hs).corrupted = true ↔ hs.corrupted = true ∨ (len hs).toNat = 2 ^ 64 - 8 := by
  rw [bitCount_corrupted, len_eq_max_iff, Bool.or_eq_true, Bool.and_eq_true, decide_eq_true_iff, decide_eq_true_iff,
    word_add_eight_eq_zero_iff, word_add_one_eq_zero_iff]

end

/-- Settles O15: the three cases of the carry, and the 64-bit sum read from them. -/
theorem bitCountAddsEightWithCarry : Obligations.BitCountAddsEightWithCarry := by
  unfold Obligations.BitCountAddsEightWithCarry
  exact fun hs => ⟨bitCount_no_carry, bitCount_carry, bitCount_overflow,
    fun h8 => ⟨len_bitCount_toNat h8, bitCount_corrupted_iff⟩⟩

/-! ### `Absorb(b)` -/

/-- A byte fills the block exactly where it is stored at position 63. -/
theorem idx_add_one_eq_iff {idx : BitVec 7} : idx + 1 = 64 ↔ idx.toNat = 63 := by bv_omega

/-- Settles O16: the field lemmas of `absorb`, with the block full where IDX was 63. -/
theorem absorbStoresCountsAndCompresses : Obligations.AbsorbStoresCountsAndCompresses := by
  unfold Obligations.AbsorbStoresCountsAndCompresses
  intro b hs hidx
  refine ⟨?buf, ?lenLo, ?lenHi, ?corrupted, absorb_computed hs b, ?below, ?full⟩
  case buf =>
    intro j hj
    simp only [absorb_buf, Vector.getElem_setIfInBounds, eq_comm]
  case lenLo => rw [absorb_lenLo, bitCount_lenLo]
  case lenHi => rw [absorb_lenHi, bitCount_lenHi]
  case corrupted => rw [absorb_corrupted, bitCount_corrupted]
  case below =>
    intro hlt
    constructor
    · rw [absorb_idx_toNat hs b hidx, Nat.mod_eq_of_lt (by omega)]
    · rw [absorb_h, if_neg (idx_add_one_eq_iff.not.2 hlt.ne)]
  case full =>
    intro hfull
    have hfills := idx_add_one_eq_iff.2 hfull
    constructor
    · rw [absorb_idx, if_pos hfills]
    · rw [absorb_h, if_pos hfills, absorb_buf]

end Sys2Proof.Machine
end

section
/-! FEED on the machine's state (41_feed.md R60 to R62), and RESULT after it. -/

namespace Sys2Proof.Machine

open Sys2Proof.Safety

theorem execFeed_refused {s : State} {n : BitVec 3} (hn : n.toNat ≤ 4)
    (h : s.hash.computed = true ∨ s.hash.corrupted = true) :
    exec (.feed n) s = .next { s with code := codeStateError } := by
  have hflag : (s.hash.computed || s.hash.corrupted) = true := by simpa using h
  simp only [exec, execFeed, if_neg (not_lt.2 hn), if_pos hflag]
  rfl

/-- RESULT sets CODE and does not read it. -/
theorem execResult_ignores_code (s : State) (c : BitVec 2) : exec .result { s with code := c } = exec .result s := rfl

/-- What RESULT does to the engine state and to DOUT depends on these two alone. -/
theorem execResult_congr {s t : State} (hhash : s.hash = t.hash) (hdout : s.dout = t.dout) :
    ∃ s' t', exec .result s = .next s' ∧ exec .result t = .next t' ∧ s'.hash = t'.hash ∧ s'.dout = t'.dout := by
  simp only [exec, execResult, ← hhash]
  split
  · exact ⟨_, _, rfl, rfl, hhash, hdout⟩
  · exact ⟨_, _, rfl, rfl, rfl, rfl⟩

/-- Settles O17: a refused FEED sets CODE alone, and RESULT does not read it. -/
theorem feedRefusedAfterFinalizeOrCorruption : Obligations.FeedRefusedAfterFinalizeOrCorruption := by
  unfold Obligations.FeedRefusedAfterFinalizeOrCorruption
  exact fun s n hn h => ⟨execFeed_refused hn h, execResult_ignores_code s 1⟩

/-- Settles O18: an accepting engine absorbs the empty list, and any other refuses. -/
theorem feedZeroChangesOnlyCode : Obligations.FeedZeroChangesOnlyCode := by
  unfold Obligations.FeedZeroChangesOnlyCode
  refine fun s => ⟨?accepting, fun h => execFeed_refused (by decide) h⟩
  rintro ⟨hcomputed, hcorrupted⟩
  have hnone : feedBytes (0 : BitVec 3).toNat s.datain = [] := rfl
  rw [execFeed_accepting (by decide) hcomputed hcorrupted, hnone, absorbAll_nil, hcorrupted]
  rfl

end Sys2Proof.Machine
end

section
/-! Chunking invariance (41_feed.md R67): a FEED acts on the engine state by its list of bytes, the action of a concatenation is
one action after the other, and a program of FEEDs runs that action. -/

namespace Sys2Proof.Machine

open Sys2Proof.Safety

/-! ### FEED as an action of byte lists on the engine state -/

/-- What a FEED of `bs` makes of the engine state: the byte loop (R60) where it accepts input, and nothing otherwise (R61). -/
def feedHash (bs : List Byte) (hs : HashState) : HashState := if Accepting hs then absorbAll bs hs else hs

theorem feedHash_accepting {hs : HashState} (h : Accepting hs) (bs : List Byte) : feedHash bs hs = absorbAll bs hs :=
  if_pos h

theorem feedHash_refused {hs : HashState} (h : ¬ Accepting hs) (bs : List Byte) : feedHash bs hs = hs := if_neg h

@[simp] theorem feedHash_nil (hs : HashState) : feedHash [] hs = hs := by rw [feedHash, absorbAll_nil, ite_self]

theorem not_accepting_iff {hs : HashState} : ¬ Accepting hs ↔ hs.computed = true ∨ hs.corrupted = true := by
  rw [not_and_or, Bool.not_eq_false, Bool.not_eq_false]

/-- The bytes of two FEEDs in a row act as those of one. A first FEED that overflows leaves an engine that refuses the second,
and the loop over all the bytes stops at the same byte. -/
theorem feedHash_append (xs ys : List Byte) (hs : HashState) :
    feedHash (xs ++ ys) hs = feedHash ys (feedHash xs hs) := by
  by_cases ha : Accepting hs
  case neg => rw [feedHash_refused ha, feedHash_refused ha, feedHash_refused ha]
  have ⟨hcomputed, hcorrupted⟩ := ha
  rw [feedHash_accepting ha, feedHash_accepting ha, absorbAll_append xs ys hs hcorrupted]
  split
  next hover => rw [feedHash_refused (not_accepting_iff.2 (.inr hover))]
  next hgo =>
    have hstill : Accepting (absorbAll xs hs) :=
      ⟨(absorbAll_computed xs hs).trans hcomputed, Bool.eq_false_of_not_eq_true hgo⟩
    rw [feedHash_accepting hstill]

theorem execFeed_feedHash {n : BitVec 3} (s : State) (hn : n.toNat ≤ 4) :
    ∃ c, exec (.feed n) s = .next { s with hash := feedHash (feedBytes n.toNat s.datain) s.hash, code := c } := by
  by_cases ha : Accepting s.hash
  case pos =>
    rw [feedHash_accepting ha]
    exact ⟨_, execFeed_accepting hn ha.1 ha.2⟩
  case neg =>
    rw [feedHash_refused ha]
    exact ⟨_, execFeed_refused hn (not_accepting_iff.1 ha)⟩

/-! ### Host programs, one pseudo-instruction at a time -/

theorem runAll_of_idle {s : State} (h : s.pending = []) : runAll s = .next s := by
  rw [runAll, h, List.length_nil, run_zero]

/-- A run of all pending events goes on from where its first step ends. -/
theorem runAll_of_step {s t : State} {e : HostEvent} (hp : s.pending = e :: t.pending) (h : step s = .next t) :
    runAll s = runAll t := by
  rw [runAll, hp, List.length_cons, run_succ_next h, runAll]

section
variable {s t : State} {ps : List Pseudo}

/-- A legal word written to CMD before a program: its command runs on the state with that program loaded. -/
theorem runAll_command {w : Word} {i : Instr} (hr : s.resetHeld = false) (hw : decode w = .ok i)
    (h : exec i (load s ps) = .next t) :
    runAll { s with pending := wr offCmd w :: expandAll ps } = runAll (t.observe (.write .ok)) := by
  obtain ⟨-, hpending, -⟩ := exec_frame h
  refine runAll_of_step (e := wr offCmd w) ?_ (step_command hr rfl (by rw [runCommand, hw]; exact h))
  rw [State.observe_pending, hpending]
  rfl

theorem runAll_load_feed {n : BitVec 3} (hn : n.toNat ≤ 4) (hr : s.resetHeld = false) :
    ∃ c, runAll (load s (.feed n :: ps)) = runAll (load { s with
      hash := feedHash (feedBytes n.toNat s.datain) s.hash, code := c, replies := s.replies ++ [.write .ok] } ps) := by
  obtain ⟨c, hfeed⟩ := execFeed_feedHash (load s ps) hn
  exact ⟨c, runAll_command hr (decode_feedWord n hn) hfeed⟩

/-- `FEEDB v, n` is `DATA v` and then `FEED n` (R58). -/
theorem runAll_load_feedb {v : Word} {n : BitVec 3} (hr : s.resetHeld = false) :
    runAll (load s (.feedb v n :: ps)) =
      runAll (load { s with datain := v, replies := s.replies ++ [.write .ok] } (.feed n :: ps)) :=
  runAll_of_step rfl (step_datain hr rfl)

theorem runAll_load_result (hr : s.resetHeld = false) (h : exec .result (load s []) = .next t) :
    runAll (load s [.result]) = .next (t.observe (.write .ok)) := by
  obtain ⟨-, hpending, -⟩ := exec_frame h
  have hword : decode 0x00000003 = .ok .result := decode_encode (i := .result) rfl
  exact (runAll_command hr hword h).trans (runAll_of_idle hpending)

/-- A program of FEEDs before a program `ps`: its bytes act on the engine state, and `ps` runs from there. -/
theorem runAll_load_chunkProgram {cs : List (Word × BitVec 3)} (hcs : ∀ c ∈ cs, c.2.toNat ≤ 4)
    (hr : s.resetHeld = false) :
    ∃ v c rs, runAll (load s (chunkProgram cs ++ ps)) =
      runAll (load { s with hash := feedHash (chunkBytes cs) s.hash, datain := v, code := c, replies := rs } ps) := by
  induction cs generalizing s with
  | nil => exact ⟨s.datain, s.code, s.replies, by rw [chunkBytes, List.flatMap_nil, feedHash_nil]; rfl⟩
  | cons c cs ih =>
    obtain ⟨hc, hcs⟩ := List.forall_mem_cons.1 hcs
    have hprogram : chunkProgram (c :: cs) ++ ps = .feedb c.1 c.2 :: (chunkProgram cs ++ ps) := rfl
    have hbytes : chunkBytes (c :: cs) = feedBytes c.2.toNat c.1 ++ chunkBytes cs := rfl
    rw [hprogram, runAll_load_feedb hr, hbytes, feedHash_append]
    obtain ⟨code, hfeed⟩ := runAll_load_feed (ps := chunkProgram cs ++ ps) hc
      (s := { s with datain := c.1, replies := s.replies ++ [.write .ok] }) hr
    rw [hfeed]
    exact ih hcs hr

/-- RESULT delivers the same from two states that agree on the engine state and DOUT. -/
theorem runAll_load_result_congr (hs : s.resetHeld = false) (ht : t.resetHeld = false) (hhash : s.hash = t.hash)
    (hdout : s.dout = t.dout) :
    ∃ s' t', runAll (load s [.result]) = .next s' ∧ runAll (load t [.result]) = .next t' ∧
      s'.hash = t'.hash ∧ s'.dout = t'.dout := by
  obtain ⟨s', t', hs', ht', hhash', hdout'⟩ := execResult_congr (s := load s []) (t := load t []) hhash hdout
  exact ⟨_, _, runAll_load_result hs hs', runAll_load_result ht ht', hhash', hdout'⟩

end

/-- Settles O54: both cuts act on the engine state by the same bytes, and RESULT reads nothing but what they agree on. -/
theorem chunkingInvariance : Obligations.ChunkingInvariance := by
  unfold Obligations.ChunkingInvariance
  intro s xs ys hr _ hxs hys hbytes
  have hhash : feedHash (chunkBytes xs) s.hash = feedHash (chunkBytes ys) s.hash := by rw [hbytes]
  refine ⟨?feeds, ?result⟩
  case feeds =>
    obtain ⟨_, _, _, hx⟩ := runAll_load_chunkProgram (ps := []) hxs hr
    obtain ⟨_, _, _, hy⟩ := runAll_load_chunkProgram (ps := []) hys hr
    rw [List.append_nil] at hx hy
    exact ⟨_, _, hx.trans (runAll_of_idle rfl), hy.trans (runAll_of_idle rfl), hhash, rfl⟩
  case result =>
    obtain ⟨_, _, _, hx⟩ := runAll_load_chunkProgram (ps := [.result]) hxs hr
    obtain ⟨_, _, _, hy⟩ := runAll_load_chunkProgram (ps := [.result]) hys hr
    rw [hx, hy]
    exact runAll_load_result_congr hr hr hhash rfl

end Sys2Proof.Machine
end

section
/-! `Pad()` (42_result.md R70): the bytes of the blocks it hashes. The 0x80 byte goes in first; then the block has room for the
length field, or it is zero-filled and hashed and the length field goes into the next one. -/

namespace Sys2Proof.Machine

open Sys2Proof.Safety

/-! ### The length field -/

theorem lenByte_of_lt_four (hs : HashState) {k : Nat} (hk : k < 4) : lenByte hs k = byteOf k hs.lenHi := by
  have hpos : 56 - 8 * k - 32 = 24 - 8 * k := by omega
  rw [lenByte, len, BitVec.extractLsb'_append_eq_of_le (by omega), hpos, byteOf]

theorem lenByte_of_four_le (hs : HashState) {k : Nat} (hk : 4 ≤ k) : lenByte hs k = byteOf (k - 4) hs.lenLo := by
  have hpos : 56 - 8 * k = 24 - 8 * (k - 4) := by omega
  rw [lenByte, len, BitVec.extractLsb'_append_eq_of_add_le (by omega), hpos, byteOf]

/-- Byte k of the length field is that of the 64-bit LEN. -/
theorem putLength_buf_lenByte (hs : HashState) {j : Nat} (hj : j < 64) :
    (putLength hs).buf[j] = if j < 56 then hs.buf[j] else lenByte hs (j - 56) := by
  rw [putLength_buf hs j hj]
  split
  next => rfl
  next hge =>
    split
    next hhi => rw [lenByte_of_lt_four hs (by omega)]
    next hlo => rw [lenByte_of_four_le hs (by omega), show j - 56 - 4 = j - 60 by omega]

@[simp] theorem lenByte_zeroUntil (limit : Nat) (hs : HashState) : lenByte (zeroUntil limit hs) = lenByte hs := by
  funext k
  simp [lenByte, len]

@[simp] theorem lenByte_padOverflow (hs : HashState) : lenByte (padOverflow hs) = lenByte hs := by
  funext k
  simp [lenByte, len]

@[simp] theorem lenByte_putByte (b : Byte) (hs : HashState) : lenByte (putByte b hs) = lenByte hs := rfl

/-! ### The blocks -/

theorem putByte_buf_getElem (b : Byte) (hs : HashState) {j : Nat} (hj : j < 64) :
    (putByte b hs).buf[j] = if j = hs.idx.toNat then b else hs.buf[j] := by
  simp only [putByte_buf, Vector.getElem_setIfInBounds, eq_comm]

/-- The block that the final `Compress()` hashes: what stood in BUF below IDX, zeros up to position 56, LEN. -/
theorem putLength_zeroUntil_buf {hs : HashState} (hidx : hs.idx.toNat ≤ 56) {j : Nat} (hj : j < 64) :
    (putLength (zeroUntil 56 hs)).buf[j] =
      if j < hs.idx.toNat then hs.buf[j] else if j < 56 then 0x00 else lenByte hs (j - 56) := by
  rw [putLength_buf_lenByte _ hj, zeroUntil_buf _ _ (by decide) (by omega) _ hj, lenByte_zeroUntil]
  rcases lt_or_ge j hs.idx.toNat with hlt | hge
  · rw [if_pos (by omega), if_neg (by omega), if_pos hlt]
  · rw [if_neg hge.not_gt]
    split
    next h56 => rw [if_pos ⟨hge, h56⟩]
    next h56 => rfl

theorem padOverflow_of_le {hs : HashState} (h : hs.idx.toNat ≤ 56) : padOverflow hs = hs := if_neg (not_lt.2 h)

theorem padOverflow_of_lt {hs : HashState} (h : 56 < hs.idx.toNat) : padOverflow hs = compress (zeroUntil 64 hs) := if_pos h

section
variable {hs : HashState}

theorem buf_eq_padOnlyBlock (h : hs.idx.toNat ≤ 55) : (putLength (zeroUntil 56 (putByte 0x80 hs))).buf = padOnlyBlock hs := by
  have hidx := putByte_idx_toNat hs 0x80 (by omega)
  ext1 j hj
  rw [putLength_zeroUntil_buf (by omega) hj, hidx, putByte_buf_getElem _ _ hj, lenByte_putByte, padOnlyBlock,
    Vector.getElem_ofFn]
  dsimp only
  rcases lt_trichotomy j hs.idx.toNat with hlt | heq | hgt
  · rw [if_pos (by omega), if_neg hlt.ne, if_pos hlt]
  · rw [if_pos (by omega), if_pos heq, if_neg (by omega), if_pos heq]
  · rw [if_neg (by omega), if_neg hgt.not_gt, if_neg hgt.ne']

theorem buf_eq_padFirstBlock (h : hs.idx.toNat ≤ 63) : (zeroUntil 64 (putByte 0x80 hs)).buf = padFirstBlock hs := by
  have hidx := putByte_idx_toNat hs 0x80 h
  ext1 j hj
  rw [zeroUntil_buf _ _ le_rfl (by omega) _ hj, hidx, putByte_buf_getElem _ _ hj, padFirstBlock, Vector.getElem_ofFn]
  dsimp only
  rcases lt_trichotomy j hs.idx.toNat with hlt | heq | hgt
  · rw [if_neg (by omega), if_neg hlt.ne, if_pos hlt]
  · rw [if_neg (by omega), if_pos heq, if_neg (by omega), if_pos heq]
  · rw [if_pos (by omega), if_neg hgt.not_gt, if_neg hgt.ne']

theorem buf_eq_padSecondBlock (h0 : hs.idx = 0) : (putLength (zeroUntil 56 hs)).buf = padSecondBlock hs := by
  have hidx : hs.idx.toNat = 0 := congrArg BitVec.toNat h0
  ext1 j hj
  rw [putLength_zeroUntil_buf (by omega) hj, if_neg (by omega), padSecondBlock, Vector.getElem_ofFn]

/-! ### `Pad()` -/

/-- The length field has room after the 0x80 byte: one block. -/
theorem pad_one_block (h : hs.idx.toNat ≤ 55) :
    (pad hs).h = compressBlock hs.h (padOnlyBlock hs) ∧ (pad hs).buf = padOnlyBlock hs := by
  have hidx := putByte_idx_toNat hs 0x80 (by omega)
  have hpad : pad hs = compress (putLength (zeroUntil 56 (putByte 0x80 hs))) := by
    rw [pad, padOverflow_of_le (by omega)]
  rw [hpad, compress_h, compress_buf, buf_eq_padOnlyBlock h, putLength_h, zeroUntil_h, putByte_h]
  exact ⟨rfl, rfl⟩

/-- The length field has no room after the 0x80 byte: the extra pass, and a second block from IDX = 0. -/
theorem pad_two_blocks (h : 56 ≤ hs.idx.toNat) (h63 : hs.idx.toNat ≤ 63) :
    (pad hs).h = compressBlock (compressBlock hs.h (padFirstBlock hs)) (padSecondBlock hs) ∧
      (pad hs).buf = padSecondBlock hs := by
  have hidx := putByte_idx_toNat hs 0x80 h63
  have hover : padOverflow (putByte 0x80 hs) = compress (zeroUntil 64 (putByte 0x80 hs)) :=
    padOverflow_of_lt (by omega)
  have hh : (padOverflow (putByte 0x80 hs)).h = compressBlock hs.h (padFirstBlock hs) := by
    rw [hover, compress_h, buf_eq_padFirstBlock h63, zeroUntil_h, putByte_h]
  have hbuf : (putLength (zeroUntil 56 (padOverflow (putByte 0x80 hs)))).buf = padSecondBlock hs := by
    rw [buf_eq_padSecondBlock (by rw [hover, compress_idx]), padSecondBlock, lenByte_padOverflow, lenByte_putByte, padSecondBlock]
  rw [pad, compress_h, compress_buf, hbuf, putLength_h, zeroUntil_h, hh]
  exact ⟨rfl, rfl⟩

end

/-- Settles O27: the two cases of the extra pass, and the fields that `Pad()` keeps. -/
theorem padBuildsTheFinalBlocks : Obligations.PadBuildsTheFinalBlocks := by
  unfold Obligations.PadBuildsTheFinalBlocks
  exact fun hs h63 => ⟨pad_one_block, fun h56 => pad_two_blocks h56 h63, pad_idx hs, pad_lenLo hs, pad_lenHi hs,
    pad_computed hs, pad_corrupted hs⟩

end Sys2Proof.Machine
end

section
/-! The RESULT command (42_result.md R68 to R74). -/

namespace Sys2Proof.Machine

open Sys2Proof.Safety

/-! ### One equation for each case of R68 -/

section
variable {s t : State}

theorem execResult_corrupted (h : s.hash.corrupted = true) :
    exec .result s = .next { s with code := codeStateError } := by
  simp only [exec, execResult, if_pos h]
  rfl

theorem execResult_finalized (hcomputed : s.hash.computed = true) (hcorrupted : s.hash.corrupted = false) :
    exec .result s = .next { s with dout := s.hash.h, code := codeSuccess } := by
  simp only [exec, execResult, hcorrupted, hcomputed, Bool.false_eq_true, if_false, if_true]
  rfl

/-- Where CORRUPTED = 0, RESULT succeeds and delivers the H it leaves (R73). -/
theorem execResult_delivers (hcorrupted : s.hash.corrupted = false) (h : exec .result s = .next t) :
    t.code = codeSuccess ∧ t.dout = t.hash.h := by
  obtain ⟨hcorrupted', -⟩ | ⟨-, -, rfl⟩ | ⟨-, -, rfl⟩ := execResult_cases h
  · exact absurd (hcorrupted.symm.trans hcorrupted') Bool.false_ne_true
  · exact ⟨rfl, rfl⟩
  · exact ⟨rfl, rfl⟩

end

/-- Settles O23: the first case of R68. -/
theorem resultFailsWhenCorrupted : Obligations.ResultFailsWhenCorrupted := by
  unfold Obligations.ResultFailsWhenCorrupted
  exact fun s h => execResult_corrupted h

/-- Settles O25: DOUT is H as a whole, and so word by word and byte by byte. -/
theorem successfulResultDeliversH : Obligations.SuccessfulResultDeliversH := by
  unfold Obligations.SuccessfulResultDeliversH
  intro s hcorrupted
  obtain ⟨t, h⟩ := exec_completes .result s
  obtain ⟨hcode, hdout⟩ := execResult_delivers hcorrupted h
  exact ⟨t, h, hcode, fun i hi => by rw [hdout], fun j hj => by rw [hdout]⟩

/-- Settles O26: the first RESULT leaves a finalized engine with DOUT = H, the FEED is refused and sets CODE alone, and the
second RESULT writes the same H over DOUT. -/
theorem repeatedResultRedelivers : Obligations.RepeatedResultRedelivers := by
  unfold Obligations.RepeatedResultRedelivers
  refine ⟨fun s hcomputed hcorrupted => execResult_finalized hcomputed hcorrupted, ?again⟩
  case again =>
    rintro s t u v n ⟨-, hopen⟩ hn hfirst hfeed hsecond
    obtain ⟨hcode, hdout⟩ := execResult_delivers hopen hfirst
    obtain ⟨hcorrupted, hcomputed⟩ := execResult_success_flags hfirst hcode
    rw [execFeed_refused hn (.inl hcomputed)] at hfeed
    cases hfeed
    rw [execResult_ignores_code, execResult_finalized hcomputed hcorrupted] at hsecond
    cases hsecond
    exact ⟨hdout.symm, rfl, rfl⟩

end Sys2Proof.Machine
end

section
/-! The message schedule (43_compression.md R76, R77). `extendSchedule` keeps the newest word at the head, so a word's own
predecessors are what stands after it; `schedule` reads that list from its end. -/

namespace Sys2Proof.Machine

/-! ### The extension, newest word first -/

/-- An extension by one more word, seen from its end: the newest word is computed from all the others. -/
theorem extendSchedule_succ (n : Nat) (ws : List Word) :
    extendSchedule (n + 1) ws = nextWord (extendSchedule n ws) :: extendSchedule n ws := by
  induction n generalizing ws with
  | zero => rfl
  | succ n ih => exact ih (nextWord ws :: ws)

@[simp] theorem length_extendSchedule (n : Nat) (ws : List Word) : (extendSchedule n ws).length = ws.length + n := by
  induction n with
  | zero => rfl
  | succ n ih => rw [extendSchedule_succ, List.length_cons, ih, Nat.add_assoc]

theorem suffix_extendSchedule (n : Nat) (ws : List Word) : ws <:+ extendSchedule n ws := by
  induction n with
  | zero => exact List.suffix_rfl
  | succ n ih =>
    rw [extendSchedule_succ]
    exact ih.trans (List.suffix_cons _ _)

/-- Each of the `n` new words is `nextWord` of the words older than it. -/
theorem getElem?_extendSchedule {n k : Nat} (ws : List Word) (hk : k < n) :
    (extendSchedule n ws)[k]? = some (nextWord ((extendSchedule n ws).drop (k + 1))) := by
  induction n generalizing k with
  | zero => exact absurd hk (Nat.not_lt_zero k)
  | succ n ih =>
    rw [extendSchedule_succ]
    cases k with
    | zero => rfl
    | succ k =>
      rw [List.getElem?_cons_succ, List.drop_succ_cons]
      exact ih (Nat.lt_of_succ_lt_succ hk)

/-! ### The schedule, in increasing t -/

section
variable (buf : Vector Byte 64)

@[simp] theorem length_schedule : (schedule buf).length = 80 := by simp [schedule]

theorem messageWords_prefix_schedule : (List.range 16).map (messageWord buf) <+: schedule buf := by
  have h := List.reverse_prefix.2 (suffix_extendSchedule 64 ((List.range 16).map (messageWord buf)).reverse)
  rwa [List.reverse_reverse] at h

theorem messageWord_eq_be32 {t : Nat} (ht : t < 16) :
    messageWord buf t = be32 buf[4 * t] buf[4 * t + 1] buf[4 * t + 2] buf[4 * t + 3] := by
  have hbyte {i : Nat} (hi : i < 64) : buf.toList.getD i 0 = buf[i] := by
    rw [List.getD_eq_getElem _ _ (by simpa using hi), Vector.getElem_toList]
  rw [messageWord, hbyte, hbyte, hbyte, hbyte]

/-- R76: the first 16 words are those of the block. -/
theorem schedule_of_lt_sixteen {t : Nat} (ht : t < 16) :
    (schedule buf)[t]? = some (be32 buf[4 * t] buf[4 * t + 1] buf[4 * t + 2] buf[4 * t + 3]) := by
  have hlen : t < ((List.range 16).map (messageWord buf)).length := by simpa using ht
  rw [← messageWord_eq_be32 buf ht, List.prefix_iff_getElem?.1 (messageWords_prefix_schedule buf) t hlen]
  simp

/-- The extension's word at position `k` from the newest is `W[79 − k]`. -/
theorem getElem?_schedule {t : Nat} (ht : t < 80) :
    (schedule buf)[t]? = (extendSchedule 64 ((List.range 16).map (messageWord buf)).reverse)[79 - t]? := by
  rw [schedule, List.getElem?_reverse (by simpa using ht)]
  simp

/-- R77: each later word is computed from those 3, 8, 14 and 16 places before it. -/
theorem schedule_of_sixteen_le {t : Nat} (h16 : 16 ≤ t) (ht : t < 80) :
    (schedule buf)[t]? = some (rotl ((schedule buf).getD (t - 3) 0 ^^^ (schedule buf).getD (t - 8) 0 ^^^
      (schedule buf).getD (t - 14) 0 ^^^ (schedule buf).getD (t - 16) 0) 1) := by
  have hword (j : Nat) (hj : j < 16) :
      ((extendSchedule 64 ((List.range 16).map (messageWord buf)).reverse).drop (79 - t + 1)).getD j 0 =
        (schedule buf).getD (t - (j + 1)) 0 := by
    have hpos : 79 - t + 1 + j = 79 - (t - (j + 1)) := by omega
    rw [List.getD_eq_getElem?_getD, List.getD_eq_getElem?_getD, List.getElem?_drop, hpos, getElem?_schedule buf (by omega)]
  rw [getElem?_schedule buf ht, getElem?_extendSchedule _ (by omega), nextWord, hword 2 (by decide),
    hword 7 (by decide), hword 13 (by decide), hword 15 (by decide)]

end

/-- Settles O29: the length, the words of the block, the extension. -/
theorem scheduleIsSixteenWordsExtended : Obligations.ScheduleIsSixteenWordsExtended := by
  unfold Obligations.ScheduleIsSixteenWordsExtended
  exact fun buf => ⟨length_schedule buf, fun _ ht => schedule_of_lt_sixteen buf ht,
    fun _ h16 ht => schedule_of_sixteen_le buf h16 ht⟩

end Sys2Proof.Machine
end

section
/-! The rounds (43_compression.md R78 to R82): the functions and constants of the four stages, one round, and the 80 rounds that
`Compress()` runs. -/

namespace Sys2Proof.Machine

/-! ### The four stages (R79) -/

section
variable {t : Nat} (b c d : Word)

theorem roundF_of_lt_20 (h : t < 20) : roundF t b c d = (b &&& c) ||| (~~~b &&& d) := if_pos h

theorem roundF_of_lt_40 (h20 : 20 ≤ t) (h : t < 40) : roundF t b c d = b ^^^ c ^^^ d := by
  rw [roundF, if_neg h20.not_gt, if_pos h]

theorem roundF_of_lt_60 (h40 : 40 ≤ t) (h : t < 60) : roundF t b c d = (b &&& c) ||| (b &&& d) ||| (c &&& d) := by
  rw [roundF, if_neg (by omega), if_neg h40.not_gt, if_pos h]

theorem roundF_of_60_le (h60 : 60 ≤ t) : roundF t b c d = b ^^^ c ^^^ d := by
  rw [roundF, if_neg (by omega), if_neg (by omega), if_neg h60.not_gt]

theorem roundK_of_lt_20 (h : t < 20) : roundK t = 0x5A827999 := if_pos h

theorem roundK_of_lt_40 (h20 : 20 ≤ t) (h : t < 40) : roundK t = 0x6ED9EBA1 := by
  rw [roundK, if_neg h20.not_gt, if_pos h]

theorem roundK_of_lt_60 (h40 : 40 ≤ t) (h : t < 60) : roundK t = 0x8F1BBCDC := by
  rw [roundK, if_neg (by omega), if_neg h40.not_gt, if_pos h]

theorem roundK_of_60_le (h60 : 60 ≤ t) : roundK t = 0xCA62C1D6 := by
  rw [roundK, if_neg (by omega), if_neg (by omega), if_neg h60.not_gt]

/-- The first stage chooses by B. -/
theorem getLsbD_roundF_choice (h : t < 20) {i : Nat} (hi : i < 32) :
    (roundF t b c d).getLsbD i = if b.getLsbD i then c.getLsbD i else d.getLsbD i := by
  rw [roundF_of_lt_20 b c d h, BitVec.getLsbD_or, BitVec.getLsbD_and, BitVec.getLsbD_and, BitVec.getLsbD_not]
  cases b.getLsbD i <;> simp [hi]

theorem majority_iff : ∀ x y z : Bool, (x && y || x && z || y && z) = true ↔ 2 ≤ x.toNat + y.toNat + z.toNat := by decide

/-- The third stage takes the majority. -/
theorem getLsbD_roundF_majority (h40 : 40 ≤ t) (h : t < 60) (i : Nat) :
    (roundF t b c d).getLsbD i = true ↔ 2 ≤ (b.getLsbD i).toNat + (c.getLsbD i).toNat + (d.getLsbD i).toNat := by
  simp only [roundF_of_lt_60 b c d h40 h, BitVec.getLsbD_or, BitVec.getLsbD_and, majority_iff]

end

/-- Settles O30, stage by stage. -/
theorem roundFunctionsByStage : Obligations.RoundFunctionsByStage := by
  unfold Obligations.RoundFunctionsByStage
  intro t b c d _
  refine ⟨fun h19 => ?choice, fun h20 h39 => ?parity, fun h40 h59 => ?majority, fun h60 => ?lastParity⟩
  case choice =>
    have h := Nat.lt_succ_of_le h19
    exact ⟨roundF_of_lt_20 b c d h, roundK_of_lt_20 h, fun _ hi => getLsbD_roundF_choice b c d h hi⟩
  case parity =>
    have h := Nat.lt_succ_of_le h39
    exact ⟨roundF_of_lt_40 b c d h20 h, roundK_of_lt_40 h20 h⟩
  case majority =>
    have h := Nat.lt_succ_of_le h59
    exact ⟨roundF_of_lt_60 b c d h40 h, roundK_of_lt_60 h40 h, fun i _ => getLsbD_roundF_majority b c d h40 h i⟩
  case lastParity => exact ⟨roundF_of_60_le b c d h60, roundK_of_60_le h60⟩

/-! ### One round and 80 rounds -/

/-- Settles O31: the five assignments of R80 are the fields of `roundStep`. -/
theorem roundShiftsWorkingVariables : Obligations.RoundShiftsWorkingVariables := by
  unfold Obligations.RoundShiftsWorkingVariables
  exact fun t w a b c d e => rfl

/-- Rounds on a list of words are rounds counted from `t`, each on the word at its own place in the list. -/
theorem runRounds_eq_foldl (t : Nat) (ws : List Word) (v : Working) :
    runRounds t ws v = (List.range ws.length).foldl (fun v i => roundStep (t + i) (ws.getD i 0) v) v := by
  induction ws generalizing t v with
  | nil => rfl
  | cons w ws ih =>
    have hshift (i : Nat) : t + 1 + i = t + (i + 1) := by omega
    rw [runRounds, ih, List.length_cons, List.range_succ_eq_map, List.foldl_cons, List.foldl_map]
    simp only [hshift, List.getD_cons_succ]
    rfl

/-- The 80 rounds of `Compress()` (R78, R80), on `W[0..79]` in order. -/
theorem runRounds_schedule (buf : Vector Byte 64) (v : Working) :
    runRounds 0 (schedule buf) v = (List.range 80).foldl (fun v t => roundStep t ((schedule buf).getD t 0) v) v := by
  simp only [runRounds_eq_foldl, length_schedule, Nat.zero_add]

/-- Settles O32: `compress` sets H and IDX alone, and H is the feed-forward (R81) of the 80 rounds from A..E = H. -/
theorem compressRunsEightyRounds : Obligations.CompressRunsEightyRounds := by
  unfold Obligations.CompressRunsEightyRounds
  intro hs
  simp only [compress, compressBlock, feedForward, workingOf, runRounds_schedule]

end Sys2Proof.Machine
end

section
/-! The causes of STATE_ERROR (60_exceptions.md R89) and what the sticky flags keep (R91). First where the byte loop of FEED
overflows the counter and what it has absorbed by then, then CODE after each command, then the step on a command word. -/

namespace Sys2Proof.Machine

open Sys2Proof.Safety

/-! ### The bit counter over the byte loop of FEED (R65) -/

section
variable {hs : HashState}

theorem len_toNat_mod_eight (h8 : hs.lenLo.toNat % 8 = 0) : (len hs).toNat % 8 = 0 := by
  rw [len_toNat]
  omega

theorem absorb_lenLo_mod_eight (b : Byte) (h8 : hs.lenLo.toNat % 8 = 0) : (absorb b hs).lenLo.toNat % 8 = 0 := by
  rw [absorb_lenLo]
  bv_omega

theorem absorb_corrupted_iff (b : Byte) :
    (absorb b hs).corrupted = true ↔ hs.corrupted = true ∨ (len hs).toNat = 2 ^ 64 - 8 := by
  rw [absorb_corrupted, ← bitCount_corrupted, bitCount_corrupted_iff]

/-- A byte that does not overflow the counter adds 8 to LEN as a number. -/
theorem len_absorb_toNat {b : Byte} (h8 : hs.lenLo.toNat % 8 = 0) (hgo : (absorb b hs).corrupted = false) :
    (len (absorb b hs)).toNat = (len hs).toNat + 8 := by
  have hlast : ¬ (len hs).toNat = 2 ^ 64 - 8 := fun h => by simp [(absorb_corrupted_iff b).2 (.inr h)] at hgo
  have hmod := len_toNat_mod_eight h8
  have hlt := (len hs).isLt
  calc (len (absorb b hs)).toNat
      = (len (bitCount hs)).toNat := by
        rw [len_toNat, len_toNat, absorb_lenLo, absorb_lenHi, bitCount_lenLo, bitCount_lenHi]
    _ = ((len hs).toNat + 8) % 2 ^ 64 := len_bitCount_toNat h8
    _ = (len hs).toNat + 8 := Nat.mod_eq_of_lt (by omega)

/-- The loop overflows the counter exactly where the bits of its bytes leave LEN's 64 bits. -/
theorem absorbAll_corrupted_iff (bs : List Byte) (hopen : hs.corrupted = false) (h8 : hs.lenLo.toNat % 8 = 0) :
    (absorbAll bs hs).corrupted = true ↔ 2 ^ 64 ≤ (len hs).toNat + 8 * bs.length := by
  induction bs generalizing hs with
  | nil =>
    have hlt := (len hs).isLt
    simp only [absorbAll_nil, hopen, Bool.false_eq_true, false_iff, List.length_nil]
    omega
  | cons b bs ih =>
    rw [List.length_cons]
    cases hb : (absorb b hs).corrupted with
    | true =>
      have hlast : (len hs).toNat = 2 ^ 64 - 8 := by simpa [hopen] using (absorb_corrupted_iff b).1 hb
      rw [absorbAll_cons_stop hb, hb]
      exact iff_of_true rfl (by omega)
    | false =>
      rw [absorbAll_cons_go hb, ih hb (absorb_lenLo_mod_eight b h8), len_absorb_toNat h8 hb]
      omega

/-- Where byte `j` is the one that overflows, the loop has absorbed the first `j` bytes. -/
theorem absorbAll_eq_foldl_take {bs : List Byte} {j : Nat} (hopen : hs.corrupted = false) (h8 : hs.lenLo.toNat % 8 = 0)
    (hj : 1 ≤ j) (hjlen : j ≤ bs.length) (hlen : (len hs).toNat + 8 * j = 2 ^ 64) :
    absorbAll bs hs = (bs.take j).foldl (fun hs b => absorb b hs) hs := by
  induction bs generalizing hs j with
  | nil => exact absurd (hj.trans hjlen) (by decide)
  | cons b bs ih =>
    obtain ⟨k, rfl⟩ := Nat.exists_eq_add_of_le' hj
    rw [List.take_succ_cons, List.foldl_cons]
    rw [List.length_cons] at hjlen
    cases hb : (absorb b hs).corrupted with
    | true =>
      have hlast : (len hs).toNat = 2 ^ 64 - 8 := by simpa [hopen] using (absorb_corrupted_iff b).1 hb
      obtain rfl : k = 0 := by omega
      rw [absorbAll_cons_stop hb, List.take_zero, List.foldl_nil]
    | false =>
      have hnext := len_absorb_toNat h8 hb
      have hlt := (len (absorb b hs)).isLt
      rw [absorbAll_cons_go hb]
      exact ih hb (absorb_lenLo_mod_eight b h8) (by omega) (by omega) (by omega)

end

/-- The first `j` bytes of the word `w` absorbed in order, without a look at the counter. -/
def absorbLeading (j : Nat) (w : Word) (hs : HashState) : HashState :=
  (List.range j).foldl (fun hs k => absorb (byteOf k w) hs) hs

theorem absorbLeading_eq_foldl_take {j n : Nat} (h : j ≤ n) (w : Word) (hs : HashState) :
    absorbLeading j w hs = ((feedBytes n w).take j).foldl (fun hs b => absorb b hs) hs := by
  rw [feedBytes, ← List.map_take, List.take_range, Nat.min_eq_left h, List.foldl_map, absorbLeading]

@[simp] theorem length_feedBytes (n : Nat) (w : Word) : (feedBytes n w).length = n := by simp [feedBytes]

/-! ### CODE after a command (R89) -/

section
variable {s t : State} {n : BitVec 3}

theorem ite_stateError_eq_iff {b : Bool} :
    (if b = true then codeStateError else codeSuccess) = codeStateError ↔ b = true := by
  cases b <;> decide

theorem illegal_ne_stateError : codeIllegal ≠ codeStateError := by decide

theorem execReset_code (h : exec .reset s = .next t) : t.code = codeSuccess := by
  rw [execReset_eq] at h
  cases h
  rfl

theorem execResult_stateError_iff (h : exec .result s = .next t) :
    t.code = codeStateError ↔ s.hash.corrupted = true := by
  cases hcorrupted : s.hash.corrupted with
  | true =>
    rw [execResult_corrupted hcorrupted] at h
    cases h
    exact iff_of_true rfl rfl
  | false =>
    rw [(execResult_delivers hcorrupted h).1]
    decide

/-- A FEED of a legal count fails where the engine refuses it, or where its bytes overflow the counter. -/
theorem execFeed_stateError_iff (hopen : Accepting s.hash → OpenInv s.hash) (h : exec (.feed n) s = .next t) :
    t.code = codeStateError ↔
      n.toNat ≤ 4 ∧ (¬ Accepting s.hash ∨ Accepting s.hash ∧ 2 ^ 64 ≤ (len s.hash).toNat + 8 * n.toNat) := by
  obtain ⟨hn, rfl⟩ | ⟨hn, hflag, rfl⟩ | ⟨hn, hcomputed, hcorrupted, rfl⟩ := execFeed_cases h
  · exact iff_of_false illegal_ne_stateError fun hlegal => absurd hlegal.1 (not_le.2 hn)
  · exact iff_of_true rfl ⟨hn, .inl (not_accepting_iff.2 hflag)⟩
  · have ha : Accepting s.hash := ⟨hcomputed, hcorrupted⟩
    have hover := absorbAll_corrupted_iff (feedBytes n.toNat s.datain) hcorrupted (hopen ha).1
    rw [length_feedBytes] at hover
    refine (ite_stateError_eq_iff.trans hover).trans ⟨fun hlast => ⟨hn, .inr ⟨ha, hlast⟩⟩, ?_⟩
    rintro ⟨-, hrefused | ⟨-, hlast⟩⟩
    · exact absurd ha hrefused
    · exact hlast

/-- The FEED whose byte `j` overflows the counter (R65). -/
theorem execFeed_overflow {j : Nat} (hn : n.toNat ≤ 4) (ha : Accepting s.hash) (h8 : s.hash.lenLo.toNat % 8 = 0)
    (hj : 1 ≤ j) (hjn : j ≤ n.toNat) (hlen : (len s.hash).toNat + 8 * j = 2 ^ 64) :
    exec (.feed n) s = .next { s with hash := absorbLeading j s.datain s.hash, code := codeStateError } ∧
      (absorbLeading j s.datain s.hash).corrupted = true ∧ (absorbLeading j s.datain s.hash).computed = false := by
  obtain ⟨hcomputed, hcorrupted⟩ := ha
  have hlength := length_feedBytes n.toNat s.datain
  have hover : (absorbAll (feedBytes n.toNat s.datain) s.hash).corrupted = true :=
    (absorbAll_corrupted_iff _ hcorrupted h8).2 (by omega)
  have hleading : absorbAll (feedBytes n.toNat s.datain) s.hash = absorbLeading j s.datain s.hash := by
    rw [absorbLeading_eq_foldl_take hjn, absorbAll_eq_foldl_take hcorrupted h8 hj (by omega) hlen]
  rw [execFeed_accepting hn hcomputed hcorrupted, if_pos hover, ← hleading]
  exact ⟨rfl, hover, (absorbAll_computed _ _).trans hcomputed⟩

/-- An engine that accepts no input answers STATE_ERROR without any other change. -/
theorem exec_eq_of_stateError {i : Instr} (hrefuses : ¬ Accepting s.hash) (h : exec i s = .next t)
    (hcode : t.code = codeStateError) : t = { s with code := codeStateError } := by
  cases i with
  | reset => exact absurd ((execReset_code h).symm.trans hcode) (by decide)
  | feed n =>
    obtain ⟨-, rfl⟩ | ⟨-, -, rfl⟩ | ⟨-, hcomputed, hcorrupted, -⟩ := execFeed_cases h
    · exact absurd hcode illegal_ne_stateError
    · rfl
    · exact absurd ⟨hcomputed, hcorrupted⟩ hrefuses
  | result =>
    rw [execResult_corrupted ((execResult_stateError_iff h).1 hcode)] at h
    cases h
    rfl

end

theorem statusWord_stateError_computed {s : State} (hcode : s.code = codeStateError) (hcomputed : s.hash.computed = true)
    (hcorrupted : s.hash.corrupted = false) : statusWord s = 0x00000101 := by
  rw [statusWord, hcode, hcomputed, hcorrupted]
  rfl

theorem statusWord_stateError_corrupted {s : State} (hcode : s.code = codeStateError) (hcomputed : s.hash.computed = false)
    (hcorrupted : s.hash.corrupted = true) : statusWord s = 0x00000201 := by
  rw [statusWord, hcode, hcomputed, hcorrupted]
  rfl

/-- Where `n` bytes overflow the counter, one of them does so. -/
theorem exists_overflowing_byte {l n : Nat} (h8 : l % 8 = 0) (hlt : l < 2 ^ 64) (hover : 2 ^ 64 ≤ l + 8 * n) :
    ∃ j, 1 ≤ j ∧ j ≤ n ∧ l = 2 ^ 64 - 8 * j :=
  ⟨(2 ^ 64 - l) / 8, by omega, by omega, by omega⟩

/-- Settles O47: CODE after each command says when, `exec_eq_of_stateError` and `execFeed_overflow` say with what effect. -/
theorem stateErrorHasFourCauses : Obligations.StateErrorHasFourCauses := by
  unfold Obligations.StateErrorHasFourCauses
  rintro s t i ⟨-, hnotBoth, hopen, -, -⟩ h
  have hopen' : Accepting s.hash → OpenInv s.hash := fun ha => hopen ha.1 ha.2
  refine ⟨?causes, ?computed, ?corrupted, ?overflow⟩
  case causes =>
    cases i with
    | reset => simp [execReset_code h, codeSuccess]
    | result =>
      simp only [reduceCtorEq, false_and, and_false, exists_const, false_or, or_false, true_and]
      exact execResult_stateError_iff h
    | feed n =>
      refine (execFeed_stateError_iff hopen' h).trans ?_
      simp only [Instr.feed.injEq, reduceCtorEq, false_and, false_or]
      constructor
      · rintro ⟨hn, hrefused | ⟨ha, hover⟩⟩
        · obtain hcomputed | hcorrupted := not_accepting_iff.1 hrefused
          · exact .inl ⟨n, hn, rfl, hcomputed⟩
          · exact .inr (.inl ⟨n, hn, rfl, hcorrupted⟩)
        · obtain ⟨j, hj, hjn, hlen⟩ :=
            exists_overflowing_byte (len_toNat_mod_eight (hopen' ha).1) (len s.hash).isLt hover
          exact .inr (.inr ⟨n, j, hn, rfl, ha, hj, hjn, hlen⟩)
      · rintro (⟨_, hn, rfl, hcomputed⟩ | ⟨_, hn, rfl, hcorrupted⟩ | ⟨_, j, hn, rfl, ha, hj, hjn, hlen⟩)
        · exact ⟨hn, .inl (not_accepting_iff.2 (.inl hcomputed))⟩
        · exact ⟨hn, .inl (not_accepting_iff.2 (.inr hcorrupted))⟩
        · exact ⟨hn, .inr ⟨ha, by omega⟩⟩
  case computed =>
    intro hcode hcomputed
    have hcorrupted : s.hash.corrupted = false := by simpa [hcomputed] using hnotBoth
    obtain rfl := exec_eq_of_stateError (not_accepting_iff.2 (.inl hcomputed)) h hcode
    exact ⟨rfl, statusWord_stateError_computed rfl hcomputed hcorrupted⟩
  case corrupted =>
    intro hcode hcorrupted
    have hcomputed : s.hash.computed = false := by simpa [hcorrupted] using hnotBoth
    obtain rfl := exec_eq_of_stateError (not_accepting_iff.2 (.inr hcorrupted)) h hcode
    exact ⟨rfl, statusWord_stateError_corrupted rfl hcomputed hcorrupted⟩
  case overflow =>
    rintro n j hn rfl ha hj hjn hlen
    obtain ⟨hexec, hcorrupted, hcomputed⟩ := execFeed_overflow hn ha (hopen' ha).1 hj hjn (by omega)
    rw [hexec] at h
    cases h
    exact ⟨rfl, hcorrupted, statusWord_stateError_corrupted rfl hcomputed hcorrupted⟩

/-! ### The step on a command word, and on every other event -/

section
variable {s t : State} {w : Word}

theorem commandOf_eq_some_iff :
    commandOf s = some w ↔ s.resetHeld = false ∧ s.pending = .write offCmd 4 w :: s.pending.tail := by
  unfold commandOf
  split
  next hp =>
    rw [Option.ite_none_right_eq_some, hp]
    constructor
    · rintro ⟨⟨hr, rfl, rfl⟩, ⟨⟩⟩
      exact ⟨hr, rfl⟩
    · rintro ⟨hr, ⟨⟩⟩
      exact ⟨⟨hr, rfl, rfl⟩, rfl⟩
  next hp => exact iff_of_false (by simp) fun hwrite => hp _ _ _ _ hwrite.2

theorem runCommand_of_decode {i : Instr} (hw : decode w = .ok i) : runCommand w s = exec i s := by
  rw [runCommand, hw]

theorem step_of_commandOf (hw : commandOf s = some w) (h : runCommand w { s with pending := s.pending.tail } = .next t) :
    step s = .next (t.observe (.write .ok)) := by
  obtain ⟨hr, hp⟩ := commandOf_eq_some_iff.1 hw
  exact step_command hr hp h

/-- Only a command or a power-on reset changes the engine state (R39). -/
theorem step_hash_of_no_command (h : step s = .next t) (hcommand : commandOf s = none) (hpower : ¬ powersOn s) :
    t.hash = s.hash := by
  obtain ⟨-, rfl⟩ | ⟨rest, hevent⟩ := step_cases h
  · rfl
  obtain ⟨_, _, -, -, -, rfl, -⟩ | ⟨w, _, hp, hr, -, -⟩ | ⟨_, -, -, rfl⟩ | ⟨_, _, -, -, -, -, -, rfl⟩ | ⟨-, rfl⟩ |
    ⟨hp, hr, -⟩ | ⟨-, -, rfl⟩ := hevent
  · rfl
  · have hw : commandOf s = some w := commandOf_eq_some_iff.2 ⟨hr, by rw [hp, List.tail_cons]⟩
    exact absurd (hcommand.symm.trans hw) (by simp)
  · rfl
  · rfl
  · rfl
  · exact absurd ⟨hr, by rw [hp, List.head?_cons]⟩ hpower
  · rfl

/-- A word other than RESET's changes CODE alone in a corrupted engine: STATE_ERROR for the encoding of a legal command, and
ILLEGAL_COMMAND for any other word (R91). -/
theorem runCommand_corrupted (hcorrupted : s.hash.corrupted = true) (hreset : w ≠ encode .reset) :
    runCommand w s = .next { s with
      code := if w ∈ legalCommands.tail.map encode then codeStateError else codeIllegal } := by
  split
  next hlegal =>
    obtain ⟨i, hi, rfl⟩ := List.mem_map.1 hlegal
    have hwf := mem_legalCommands_iff.1 (List.mem_of_mem_tail hi)
    rw [runCommand_of_decode (decode_encode hwf)]
    cases i with
    | reset => exact absurd rfl hreset
    | feed n => exact execFeed_refused (of_decide_eq_true hwf) (.inr hcorrupted)
    | result => exact execResult_corrupted hcorrupted
  next hillegal =>
    refine runCommand_eq_execIllegal s fun hmem => ?_
    exact (List.mem_cons.1 hmem).elim hreset hillegal

end

/-- Settles O46: `runCommand_corrupted` gives the step on each word but RESET's, and an event that is no command and no power-on
reset leaves the engine state. -/
theorem corruptionIsStickyUntilReset : Obligations.CorruptionIsStickyUntilReset := by
  unfold Obligations.CorruptionIsStickyUntilReset
  refine ⟨?sticky, fun s w hw => ⟨fun hcorrupted => ⟨?others, ?reset⟩, ?computed⟩⟩
  case sticky =>
    intro s t hcorrupted h hreset hpower
    cases hw : commandOf s with
    | none => rw [step_hash_of_no_command h hw hpower, hcorrupted]
    | some w =>
      rw [step_of_commandOf hw (runCommand_corrupted hcorrupted fun hw' => hreset (hw.trans (congrArg some hw')))] at h
      cases h
      exact hcorrupted
  case others => exact fun hreset => step_of_commandOf hw (runCommand_corrupted hcorrupted hreset)
  case reset =>
    rintro rfl
    exact ⟨_, step_of_commandOf hw rfl, rfl, rfl⟩
  case computed =>
    rintro hcomputed ⟨n, hn, rfl⟩
    have hrefused := (runCommand_of_decode (decode_feedWord n hn)).trans
      (execFeed_refused (s := { s with pending := s.pending.tail }) hn (.inl hcomputed))
    exact step_of_commandOf hw hrefused

end Sys2Proof.Machine
end

section
/-! Power-on reset and the RESET command (70_reset_and_hazards.md R103, R104): what each of the two leaves, in every state. -/

namespace Sys2Proof.Machine

open Sys2Proof.Safety

section
variable {s : State} {rest : List HostEvent}

/-- Power-on reset is the two events of the reset input: `powerOn` acts when the asserted input is released. -/
theorem run_two_powerOn (hp : s.pending = .assertReset :: .releaseReset :: rest) :
    run 2 s = .next { ({ s with pending := rest } : State).powerOn with resetHeld := false } := by
  rw [run_succ_next (step_assertReset hp), run_succ_next (step_releaseReset rfl rfl), run_zero]
  rfl

/-- The step of a RESET: it sets the engine state and CODE, and the host receives the reply. -/
theorem step_reset (hr : s.resetHeld = false) (hp : s.pending = .write offCmd 4 (encode .reset) :: rest) :
    step s = .next (({ s with pending := rest, hash := HashState.initial, code := codeSuccess } : State).observe
      (.write .ok)) :=
  step_command hr hp ((runCommand_of_decode (decode_encode rfl)).trans (execReset_eq _))

end

/-- Settles O14: `run_two_powerOn` and `step_reset` give both states, each with the engine state `HashState.initial` and
CODE = 0; DATAIN and DOUT are among the fields RESET does not set. -/
theorem resetAndPowerOnAgree : Obligations.ResetAndPowerOnAgree := by
  unfold Obligations.ResetAndPowerOnAgree
  intro s p r rest rest' hpower hreset
  rw [run_two_powerOn rfl] at hpower
  rw [step_reset rfl rfl] at hreset
  cases hpower
  cases hreset
  exact ⟨rfl, rfl, rfl, rfl, rfl⟩

end Sys2Proof.Machine
end

section
/-! The command words of R53's table and of `FEED n` (30_encoding.md R49 to R53, R58), from the decoder's characterisation
`decode_eq_ok_iff`, and the step on a write of one (R33). -/

namespace Sys2Proof

/-- Settles O3: `decode_eq_ok_iff`, the decoder's characterisation by `decode_encode` in one direction and by the fields it has
tested in the other. -/
theorem decodeAndEncodeAgree : Obligations.DecodeAndEncodeAgree := by
  unfold Obligations.DecodeAndEncodeAgree
  exact fun _ _ => decode_eq_ok_iff

/-- Settles O1: the seven legal words are the encodings of the legal commands; the decoder's tests reject the four others. -/
theorem listedWordsDecode : Obligations.ListedWordsDecode := by
  unfold Obligations.ListedWordsDecode
  refine ⟨?reset, ?feed0, ?feed1, ?feed2, ?feed3, ?feed4, ?result, ?illegal⟩
  case reset => exact decode_encode (i := .reset) rfl
  case feed0 => exact decode_encode (i := .feed 0) rfl
  case feed1 => exact decode_encode (i := .feed 1) rfl
  case feed2 => exact decode_encode (i := .feed 2) rfl
  case feed3 => exact decode_encode (i := .feed 3) rfl
  case feed4 => exact decode_encode (i := .feed 4) rfl
  case result => exact decode_encode (i := .result) rfl
  case illegal => decide

namespace Machine

theorem feedWord_eq_encode : ∀ n : BitVec 3, feedWord n = encode (.feed n) := by decide

theorem feedWord_toNat : ∀ n : BitVec 3, (feedWord n).toNat = 2 + 16 * n.toNat := by decide

/-- Settles O4: the two readings of the FEED word, for each of the eight values of a 3-bit count. -/
theorem feedWordEncodesFeed : Obligations.FeedWordEncodesFeed := by
  unfold Obligations.FeedWordEncodesFeed
  exact fun n => ⟨feedWord_eq_encode n, feedWord_toNat n⟩

/-- Settles O7: no command stops the machine, so the match of the statement is at its first case. -/
theorem stepRunsTheDecodedCommand : Obligations.StepRunsTheDecodedCommand := by
  unfold Obligations.StepRunsTheDecodedCommand
  intro s w rest i hr hp hw
  obtain ⟨t, ht⟩ := exec_completes i { s with pending := rest }
  rw [step_command hr hp ((runCommand_of_decode hw).trans ht), ht]
  rfl

end Machine

end Sys2Proof
end

section
/-! The FEED operand (30_encoding.md R56) and the rotation (00_scope.md R10). -/

namespace Sys2Proof.Machine

theorem feedBytes_eq_take {n m : Nat} (h : n ≤ m) (w : Word) : feedBytes n w = (feedBytes m w).take n := by
  rw [feedBytes, feedBytes, ← List.map_take, List.take_range, Nat.min_eq_left h]

theorem feedBytes_four_be32 (b0 b1 b2 b3 : Byte) : feedBytes 4 (be32 b0 b1 b2 b3) = [b0, b1, b2, b3] := by
  simp [feedBytes, List.range_succ]

/-- Settles O6: FEED 4 takes the four packed bytes, and FEED n the first n of what FEED 4 takes. -/
theorem feedOperandIsLeadingBytes : Obligations.FeedOperandIsLeadingBytes := by
  unfold Obligations.FeedOperandIsLeadingBytes
  intro b0 b1 b2 b3 n hn
  rw [feedBytes_eq_take hn, feedBytes_four_be32]

/-- Settles O28: below position n the bit comes from the right shift, and from n on it comes from the left shift. -/
theorem rotlIsCircular : Obligations.RotlIsCircular := by
  unfold Obligations.RotlIsCircular
  intro x n i hn hn32 hi
  rw [rotl, BitVec.getLsbD_or, BitVec.getLsbD_shiftLeft, BitVec.getLsbD_ushiftRight]
  rcases lt_or_ge i n with hlt | hge
  · have hpos : (i + 32 - n) % 32 = 32 - n + i := by omega
    simp [hlt, hpos]
  · have hpos : (i + 32 - n) % 32 = i - n := by omega
    have hshifted : x.getLsbD (32 - n + i) = false := BitVec.getLsbD_of_ge x _ (by omega)
    simp [hi, hge.not_gt, hpos, hshifted]

end Sys2Proof.Machine
end

section
/-! The events of the host, one by one (20_memory.md R33 to R39, 44_bus_access.md R84, R85, 70_reset_and_hazards.md R103): that
they complete, what a read returns, and what it cannot show. -/

namespace Sys2Proof.Machine

open Sys2Proof.Safety

/-! ### Completion -/

/-- Settles O9: the idle case of `step`. -/
theorem idleChangesNothing : Obligations.IdleChangesNothing := by
  unfold Obligations.IdleChangesNothing
  exact fun _ => step_idle

/-- An aligned write completes: it runs a command, stores the word or is ignored. -/
theorem runWrite_completes {off : BitVec 6} (v : Word) (s : State) (haligned : off.toNat % 4 = 0) :
    ∃ t, runWrite off 4 v s = .next t ∧ t.pending = s.pending := by
  by_cases hcmd : off = offCmd
  case pos =>
    obtain ⟨u, hu⟩ := runCommand_completes v s
    obtain ⟨-, hpending, -⟩ := runCommand_frame hu
    subst hcmd
    exact ⟨_, runWrite_command hu, hpending⟩
  case neg =>
    by_cases hdatain : off = offDatain
    case pos =>
      subst hdatain
      exact ⟨_, runWrite_datain, rfl⟩
    case neg => exact ⟨_, runWrite_ignored haligned hcmd hdatain, rfl⟩

/-- Settles O10: the step of each event that the statement lists. -/
theorem everyPerformedEventCompletes : Obligations.EveryPerformedEventCompletes := by
  unfold Obligations.EveryPerformedEventCompletes
  intro s e rest hp hperformed
  cases e with
  | read off size =>
    obtain ⟨hr, rfl, haligned⟩ := hperformed
    exact ⟨_, step_read hr hp haligned, rfl⟩
  | write off size v =>
    obtain ⟨hr, rfl, haligned⟩ := hperformed
    obtain ⟨t, ht, hpending⟩ := runWrite_completes v { s with pending := rest } haligned
    exact ⟨t, (step_eq_runWrite hr hp).trans ht, hpending⟩
  | assertReset => exact ⟨_, step_assertReset hp, rfl⟩
  | releaseReset =>
    cases hr : s.resetHeld with
    | true => exact ⟨_, step_releaseReset hr hp, rfl⟩
    | false => exact ⟨_, step_releaseReset_idle hr hp, rfl⟩

/-! ### What a read returns -/

/-- The register at offset 0x10 + 4 i is DOUT[i] (R36). -/
theorem readRegister_digest {off : BitVec 6} (s : State) {i : Nat} (hi : i < 5) (hoff : off.toNat = 0x10 + 4 * i) :
    readRegister off s = s.dout[i] := by
  have hdatain : off ≠ offDatain := fun h => by
    have h4 : off.toNat = 4 := congrArg BitVec.toNat h
    omega
  have hstatus : off ≠ offStatus := fun h => by
    have h8 : off.toNat = 8 := congrArg BitVec.toNat h
    omega
  have hindex : (off.toNat - 0x10) / 4 = i := by omega
  rw [readRegister, if_neg hdatain, if_neg hstatus, if_pos (by omega), hindex]
  simp [hi]

/-- Settles O34: the read answers `readRegister`, whose value at each offset is its lemma's. -/
theorem readReturnsTheRegister : Obligations.ReadReturnsTheRegister := by
  unfold Obligations.ReadReturnsTheRegister
  intro s off rest hr hp haligned
  refine ⟨readRegister off s, step_read hr hp haligned, ?datain, ?status, ?digest, readRegister_eq_zero s⟩
  case datain => rintro rfl; rfl
  case status => rintro rfl; rfl
  case digest => exact fun i hi hoff => readRegister_digest s hi hoff

/-- Settles O36: the step of a write to DATAIN. -/
theorem datainWriteStoresTheWord : Obligations.DatainWriteStoresTheWord := by
  unfold Obligations.DatainWriteStoresTheWord
  exact fun _ _ _ hr hp => step_datain hr hp

/-- A bus access while the reset input is asserted, of whatever offset and size. -/
theorem step_access_during_reset {s : State} {off : BitVec 6} {size : Nat} {v : Word} {rest : List HostEvent}
    (hr : s.resetHeld = true) (hp : s.pending = .read off size :: rest ∨ s.pending = .write off size v :: rest) :
    step s = .refused .accessDuringReset := by
  obtain hp | hp := hp <;> rw [step_cons hp] <;> exact if_pos hr

/-- Settles O38: the refusal is what `runEvent` answers to either access. -/
theorem accessDuringResetIsRefused : Obligations.AccessDuringResetIsRefused := by
  unfold Obligations.AccessDuringResetIsRefused
  exact fun _ _ _ _ _ hr hp => step_access_during_reset hr hp

/-! ### The window -/

theorem windowOffset_eq_none_iff {addr : Nat} :
    windowOffset addr = none ↔ addr < Config.base ∨ Config.base + 64 ≤ addr := by
  rw [windowOffset, ite_eq_right_iff]
  simp only [reduceCtorEq, imp_false]
  omega

theorem windowOffset_effectiveAddress (off : BitVec 6) : windowOffset (effectiveAddress off) = some off := by
  have hlt := off.isLt
  rw [windowOffset, effectiveAddress, if_pos (by omega), Nat.add_sub_cancel_left, BitVec.ofNat_toNat,
    BitVec.setWidth_eq]

/-- Settles O39: BASE is 64 times the window's index, and the 6-bit offset is the address less BASE. -/
theorem windowAddressesSelectOffsets : Obligations.WindowAddressesSelectOffsets := by
  unfold Obligations.WindowAddressesSelectOffsets
  exact ⟨Nat.mul_mod_right 64 _, windowOffset_effectiveAddress, fun _ => windowOffset_eq_none_iff⟩

/-! ### The DIGEST reads -/

theorem digestRead_offset_toNat : ∀ i : Fin 5, (offDigest + BitVec.ofNat 6 (4 * i.val)).toNat = 0x10 + 4 * i.val := by
  decide

/-- A run of DIGEST reads, of whatever words in whatever order. -/
theorem runAll_digestReads {s : State} (is : List (Fin 5)) (hr : s.resetHeld = false) :
    runAll { s with pending := is.map digestRead } = .next { s with
      pending := []
      replies := s.replies ++ is.map fun i => .read s.dout[i] .ok } := by
  induction is generalizing s with
  | nil => rw [runAll_of_idle rfl, List.map_nil, List.map_nil, List.append_nil]
  | cons i is ih =>
    have hoff := digestRead_offset_toNat i
    have hstep := step_read (s := { s with pending := (i :: is).map digestRead }) hr rfl (by omega)
    rw [readRegister_digest _ i.isLt hoff] at hstep
    refine (runAll_of_step rfl hstep).trans ((ih (s := s.observe _) hr).trans ?_)
    rw [State.observe_replies, List.append_assoc]
    rfl

/-- Settles O40: DIGESTALL is the DIGEST reads of all five words in order. -/
theorem digestAllReadsDout : Obligations.DigestAllReadsDout := by
  unfold Obligations.DigestAllReadsDout
  intro s hr
  have hwords : s.dout.toList = (List.finRange 5).map fun i => s.dout[i] :=
    List.ext_getElem (by simp) fun i _ _ => by simp
  refine (runAll_digestReads (List.finRange 5) hr).trans ?_
  rw [hwords, List.map_map]
  rfl

/-! ### What a read cannot show (R101) -/

/-- What the registers hold depends on DATAIN, DOUT, CODE, COMPUTED and CORRUPTED alone. -/
theorem readRegister_congr {s t : State} (off : BitVec 6) (hdatain : s.datain = t.datain) (hdout : s.dout = t.dout)
    (hcode : s.code = t.code) (hcomputed : s.hash.computed = t.hash.computed)
    (hcorrupted : s.hash.corrupted = t.hash.corrupted) : readRegister off s = readRegister off t := by
  simp only [readRegister, statusWord, hdatain, hdout, hcode, hcomputed, hcorrupted]

/-- Settles O56: with reset asserted both reads are refused; a bad access stops both with the same bus error; and an aligned
read shows the register. -/
theorem readsShowNoInternalState : Obligations.ReadsShowNoInternalState := by
  unfold Obligations.ReadsShowNoInternalState
  intro s t off size rest rest' hr hdatain hdout hcode hcomputed hcorrupted hreplies hs ht
  cases hheld : s.resetHeld with
  | true =>
    rw [step_access_during_reset (v := 0) hheld (.inl hs), step_access_during_reset (v := 0) (hr ▸ hheld) (.inl ht)]
    rfl
  | false =>
    rw [step_eq_runRead hheld hs, step_eq_runRead (hr ▸ hheld) ht]
    by_cases hbad : size ≠ 4 ∨ off.toNat % 4 ≠ 0
    case pos =>
      rw [runRead_bad hbad, runRead_bad hbad]
      rfl
    case neg =>
      obtain ⟨rfl, haligned⟩ : size = 4 ∧ off.toNat % 4 = 0 := by omega
      rw [runRead_aligned haligned, runRead_aligned haligned]
      rw [readRegister_congr (s := { s with pending := rest }) (t := { t with pending := rest' }) off hdatain hdout hcode hcomputed hcorrupted]
      exact congrArg (· ++ _) hreplies

end Sys2Proof.Machine
end

section
/-! The power-on values (10_state.md R32, 70_reset_and_hazards.md R103). -/

namespace Sys2Proof.Machine

open Sys2Proof.Safety

/-- Settles O12: `State.reset` holds `HashState.initial`, whose BUF is 64 times 0x00. -/
theorem resetStateHasPowerOnValues : Obligations.ResetStateHasPowerOnValues := by
  unfold Obligations.ResetStateHasPowerOnValues
  exact ⟨rfl, rfl, rfl, fun _ hj => Vector.getElem_replicate hj, rfl, rfl, rfl, rfl, rfl⟩

/-- Settles O13: `run_two_powerOn` gives the state after both events. -/
theorem powerOnResetGivesPowerOnValues : Obligations.PowerOnResetGivesPowerOnValues := by
  unfold Obligations.PowerOnResetGivesPowerOnValues
  exact fun _ _ hp => ⟨_, run_two_powerOn hp, rfl, rfl, rfl, rfl, rfl, rfl⟩

end Sys2Proof.Machine
end

section
/-! FEED and the invariants of the engine state (41_feed.md R60 to R65, 10_state.md R27 to R31): the byte loop as a fold where it
does not overflow the counter, what it keeps of the invariants, and what every command keeps of them. -/

namespace Sys2Proof.Machine

open Sys2Proof.Safety

/-! ### A FEED that does not overflow the counter -/

/-- The loop stops early only on a byte that sets CORRUPTED. -/
theorem absorbAll_eq_foldl {bs : List Byte} {hs : HashState} (hgo : (absorbAll bs hs).corrupted = false) :
    absorbAll bs hs = bs.foldl (fun hs b => absorb b hs) hs := by
  induction bs generalizing hs with
  | nil => rfl
  | cons b bs ih =>
    cases hb : (absorb b hs).corrupted with
    | true => rw [absorbAll_cons_stop hb, hb] at hgo; cases hgo
    | false =>
      rw [absorbAll_cons_go hb] at hgo ⊢
      rw [ih hgo, List.foldl_cons]

theorem absorbLeading_eq_foldl (n : Nat) (w : Word) (hs : HashState) :
    absorbLeading n w hs = (feedBytes n w).foldl (fun hs b => absorb b hs) hs := by
  rw [absorbLeading_eq_foldl_take le_rfl, List.take_of_length_le (length_feedBytes n w).le]

/-- Settles O19: n bytes that keep LEN below 2^64 do not set CORRUPTED, so the loop is the fold over all of them. -/
theorem feedAbsorbsItsBytes : Obligations.FeedAbsorbsItsBytes := by
  unfold Obligations.FeedAbsorbsItsBytes
  rintro s n hn ⟨hcomputed, hcorrupted⟩ ⟨h8, -⟩ hlen
  have hgo : (absorbAll (feedBytes n.toNat s.datain) s.hash).corrupted = false := by
    rw [← Bool.not_eq_true, absorbAll_corrupted_iff _ hcorrupted h8, length_feedBytes]
    exact not_le.2 hlen
  rw [execFeed_accepting hn hcomputed hcorrupted, hgo, absorbAll_eq_foldl hgo, ← absorbLeading_eq_foldl]
  rfl

/-! ### The invariants of the engine state, by the flags -/

section
variable {hs : HashState}

theorem hashInv_of_openInv (ha : Accepting hs) (hopen : OpenInv hs) : HashInv hs := by
  obtain ⟨hcomputed, hcorrupted⟩ := ha
  have hidx := hopen.2
  refine ⟨by omega, ?_, fun _ _ => hopen, ?_, ?_⟩ <;> simp [hcomputed, hcorrupted]

theorem hashInv_of_corrupted (hcomputed : hs.computed = false) (hlo : hs.lenLo = 0) (hhi : hs.lenHi = 0)
    (hidx : hs.idx = 0) : HashInv hs := by
  have hopen : OpenInv hs := by rw [OpenInv, hlo, hidx]; decide
  refine ⟨by simp [hidx], by simp [hcomputed], fun _ _ => hopen, by simp [hcomputed], fun _ => ⟨hlo, hhi, hidx⟩⟩

theorem hashInv_initial : HashInv HashState.initial := hashInv_of_openInv ⟨rfl, rfl⟩ ⟨rfl, rfl⟩

theorem hashInv_finalize (hcorrupted : hs.corrupted = false) : HashInv (finalize hs) := by
  simp [HashInv, hcorrupted]

/-! ### The byte loop keeps them -/

/-- One byte keeps LEN a multiple of 8 and IDX the byte count mod 64, also where LEN wraps at 2^64. -/
theorem absorb_openInv (b : Byte) (hopen : OpenInv hs) : OpenInv (absorb b hs) := by
  obtain ⟨h8, hidx⟩ := hopen
  refine ⟨absorb_lenLo_mod_eight b h8, ?_⟩
  rw [absorb_idx_toNat hs b (by omega), absorb_lenLo, hidx]
  bv_omega

/-- The byte that overflows the counter leaves LEN = 0, and so IDX = 0 (R31). -/
theorem absorb_overflow_zeros {b : Byte} (hcorrupted : hs.corrupted = false) (hopen : OpenInv hs)
    (hover : (absorb b hs).corrupted = true) :
    (absorb b hs).lenLo = 0 ∧ (absorb b hs).lenHi = 0 ∧ (absorb b hs).idx = 0 := by
  rw [absorb_corrupted, hcorrupted, Bool.false_or, Bool.and_eq_true, decide_eq_true_iff, decide_eq_true_iff] at hover
  obtain ⟨hlo, hhi⟩ := hover
  have hzero : (absorb b hs).lenLo = 0 := (absorb_lenLo hs b).trans hlo
  refine ⟨hzero, by rw [absorb_lenHi, if_pos hlo, hhi], BitVec.eq_of_toNat_eq ?_⟩
  rw [(absorb_openInv b hopen).2, hzero]
  rfl

theorem absorbAll_hashInv (bs : List Byte) (ha : Accepting hs) (hopen : OpenInv hs) : HashInv (absorbAll bs hs) := by
  induction bs generalizing hs with
  | nil => exact hashInv_of_openInv ha hopen
  | cons b bs ih =>
    have hcomputed : (absorb b hs).computed = false := (absorb_computed hs b).trans ha.1
    cases hb : (absorb b hs).corrupted with
    | true =>
      obtain ⟨hlo, hhi, hidx⟩ := absorb_overflow_zeros ha.2 hopen hb
      rw [absorbAll_cons_stop hb]
      exact hashInv_of_corrupted hcomputed hlo hhi hidx
    | false =>
      rw [absorbAll_cons_go hb]
      exact ih ⟨hcomputed, hb⟩ (absorb_openInv b hopen)

end

/-! ### Every command keeps them -/

section
variable {s t : State} {i : Instr}

theorem exec_hashInv (hinv : HashInv s.hash) (h : exec i s = .next t) : HashInv t.hash := by
  cases i with
  | reset =>
    rw [execReset_eq] at h
    cases h
    exact hashInv_initial
  | feed n =>
    obtain ⟨-, rfl⟩ | ⟨-, -, rfl⟩ | ⟨-, hcomputed, hcorrupted, rfl⟩ := execFeed_cases h
    · exact hinv
    · exact hinv
    · obtain ⟨-, -, hopen, -, -⟩ := hinv
      exact absorbAll_hashInv _ ⟨hcomputed, hcorrupted⟩ (hopen hcomputed hcorrupted)
  | result =>
    obtain ⟨-, rfl⟩ | ⟨-, -, rfl⟩ | ⟨hcorrupted, -, rfl⟩ := execResult_cases h
    · exact hinv
    · exact hinv
    · exact hashInv_finalize hcorrupted

/-- A command keeps DOUT = H while COMPUTED = 1 (R29): a FEED then absorbs nothing, and a RESULT delivers H. -/
theorem exec_dout_eq_h (hdout : s.hash.computed = true → s.dout = s.hash.h) (h : exec i s = .next t) :
    t.hash.computed = true → t.dout = t.hash.h := by
  cases i with
  | reset =>
    rw [execReset_eq] at h
    cases h
    exact fun hcomputed => absurd hcomputed Bool.false_ne_true
  | feed n =>
    obtain ⟨-, rfl⟩ | ⟨-, -, rfl⟩ | ⟨-, hcomputed, -, rfl⟩ := execFeed_cases h
    · exact hdout
    · exact hdout
    · simp [hcomputed]
  | result =>
    obtain ⟨-, rfl⟩ | ⟨-, -, rfl⟩ | ⟨-, -, rfl⟩ := execResult_cases h
    · exact hdout
    · exact fun _ => rfl
    · exact fun _ => rfl

theorem exec_engineInv (hinv : EngineInv s) (h : exec i s = .next t) : EngineInv t := by
  obtain ⟨hhash, -, hdout⟩ := hinv
  exact ⟨exec_hashInv hhash h, exec_code_ne_three h, exec_dout_eq_h hdout h⟩

/-- A refused word sets CODE to 2, so every word keeps the invariants. -/
theorem runCommand_engineInv {w : Word} (hinv : EngineInv s) (h : runCommand w s = .next t) : EngineInv t := by
  have hcode := runCommand_code_ne_three h
  unfold runCommand at h
  split at h
  · exact exec_engineInv hinv h
  · obtain ⟨hhash, -, hdout⟩ := hinv
    rw [execIllegal_eq] at h
    cases h
    exact ⟨hhash, hcode, hdout⟩

end

/-! ### A FEED that overflows the counter, and one that absorbs nothing -/

/-- Settles O20: `execFeed_overflow` gives the next state, the invariants its LEN and IDX, and CORRUPTED what every later FEED and
RESULT does. -/
theorem feedStopsAtCounterOverflow : Obligations.FeedStopsAtCounterOverflow := by
  unfold Obligations.FeedStopsAtCounterOverflow
  intro s n j hn ha hopen hj hjn hlen
  obtain ⟨hexec, hcorrupted, -⟩ := execFeed_overflow hn ha hopen.1 hj hjn (by omega)
  obtain ⟨-, -, -, -, hzeros⟩ := exec_hashInv (hashInv_of_openInv ha hopen) hexec
  obtain ⟨hlo, hhi, hidx⟩ := hzeros hcorrupted
  exact ⟨_, hexec, rfl, hcorrupted, hlo, hhi, hidx, fun m hm => execFeed_refused hm (.inr hcorrupted),
    execResult_corrupted hcorrupted⟩

/-- Settles O21: the first case of `execFeed`. -/
theorem feedCountAboveFourIsIllegal : Obligations.FeedCountAboveFourIsIllegal := by
  unfold Obligations.FeedCountAboveFourIsIllegal
  exact fun _ _ hn => if_pos hn

/-- Settles O22: the three cases of a FEED. -/
theorem feedFrame : Obligations.FeedFrame := by
  unfold Obligations.FeedFrame
  intro s n
  obtain ⟨t, h⟩ := exec_completes (.feed n) s
  rw [h]
  obtain ⟨-, rfl⟩ | ⟨-, -, rfl⟩ | ⟨-, hcomputed, hcorrupted, rfl⟩ := execFeed_cases h
  · exact ⟨s.hash, _, rfl, rfl, fun _ => rfl⟩
  · exact ⟨s.hash, _, rfl, rfl, fun _ => rfl⟩
  · exact ⟨_, _, rfl, absorbAll_computed _ _, fun hrefused => absurd ⟨hcomputed, hcorrupted⟩ hrefused⟩

/-! ### The first RESULT -/

theorem execResult_first {s : State} (ha : Accepting s.hash) : exec .result s = .next { s with
    hash := finalize s.hash, dout := (finalize s.hash).h, code := codeSuccess } := by
  obtain ⟨t, h⟩ := exec_completes .result s
  obtain ⟨hcorrupted, -⟩ | ⟨-, hcomputed, -⟩ | ⟨-, -, rfl⟩ := execResult_cases h
  · exact absurd (ha.2.symm.trans hcorrupted) Bool.false_ne_true
  · exact absurd (ha.1.symm.trans hcomputed) Bool.false_ne_true
  · exact h

/-- The engine state after the first RESULT, field by field. -/
theorem finalize_eq (hs : HashState) : finalize hs =
    { h := (pad hs).h, lenLo := 0, lenHi := 0, buf := zeroBuf, idx := 0, computed := true, corrupted := hs.corrupted } := by
  rw [finalize, pad_idx, pad_corrupted]

/-- Settles O24: the fields of `finalize`, with the CORRUPTED = 0 of an accepting engine. -/
theorem firstResultFinalizes : Obligations.FirstResultFinalizes := by
  unfold Obligations.FirstResultFinalizes
  intro s ha
  rw [execResult_first ha, finalize_eq, ha.2]
  rfl

end Sys2Proof.Machine
end

section
/-! What a step can do to the engine state, DATAIN, DOUT and CODE, by the host's next event: the whole-machine rules of
10_state.md R18 to R21, R29, 20_memory.md R39 and 60_exceptions.md R88 to R91. -/

namespace Sys2Proof.Machine

open Sys2Proof.Safety

section
variable {s t : State} {w : Word}

/-! ### One command, and one step -/

/-- Everything a write to CMD can do: RESET; a FEED that absorbs; a RESULT, on a finalized engine and as the first one; and a
command that is refused or ILLEGAL, which sets CODE alone. -/
theorem runCommand_cases (h : runCommand w s = .next t) :
    (w = encode .reset ∧ t = { s with hash := HashState.initial, code := codeSuccess }) ∨
    (∃ n : BitVec 3, w = feedWord n ∧ n.toNat ≤ 4 ∧ Accepting s.hash ∧ t = { s with
      hash := absorbAll (feedBytes n.toNat s.datain) s.hash
      code := if (absorbAll (feedBytes n.toNat s.datain) s.hash).corrupted then codeStateError else codeSuccess }) ∨
    (w = encode .result ∧ s.hash.corrupted = false ∧ s.hash.computed = true ∧
      t = { s with dout := s.hash.h, code := codeSuccess }) ∨
    (w = encode .result ∧ Accepting s.hash ∧
      t = { s with hash := finalize s.hash, dout := (finalize s.hash).h, code := codeSuccess }) ∨
    (∃ c, t = { s with code := c }) := by
  unfold runCommand at h
  split at h
  next i hdecode =>
    obtain ⟨-, rfl⟩ := decode_eq_ok_iff.1 hdecode
    cases i with
    | reset =>
      rw [execReset_eq] at h
      cases h
      exact .inl ⟨rfl, rfl⟩
    | feed n =>
      obtain ⟨-, rfl⟩ | ⟨-, -, rfl⟩ | ⟨hn, hcomputed, hcorrupted, rfl⟩ := execFeed_cases h
      · exact .inr (.inr (.inr (.inr ⟨_, rfl⟩)))
      · exact .inr (.inr (.inr (.inr ⟨_, rfl⟩)))
      · exact .inr (.inl ⟨n, (feedWord_eq_encode n).symm, hn, ⟨hcomputed, hcorrupted⟩, rfl⟩)
    | result =>
      obtain ⟨-, rfl⟩ | ⟨hcorrupted, hcomputed, rfl⟩ | ⟨hcorrupted, hcomputed, rfl⟩ := execResult_cases h
      · exact .inr (.inr (.inr (.inr ⟨_, rfl⟩)))
      · exact .inr (.inr (.inl ⟨rfl, hcorrupted, hcomputed, rfl⟩))
      · exact .inr (.inr (.inr (.inl ⟨rfl, ⟨hcomputed, hcorrupted⟩, rfl⟩)))
  next =>
    rw [execIllegal_eq] at h
    cases h
    exact .inr (.inr (.inr (.inr ⟨_, rfl⟩)))

/-- Everything a step can do to the engine's registers: a command; a power-on reset; or nothing, but for a write to DATAIN. -/
theorem step_registers (h : step s = .next t) :
    (∃ w u, commandOf s = some w ∧ runCommand w { s with pending := s.pending.tail } = .next u ∧
      t = u.observe (.write .ok)) ∨
    (powersOn s ∧ t = { ({ s with pending := s.pending.tail } : State).powerOn with resetHeld := false }) ∨
    (t.hash = s.hash ∧ t.dout = s.dout ∧ t.code = s.code ∧
      (t.datain = s.datain ∨ ∃ v rest, s.pending = .write offDatain 4 v :: rest ∧ t.datain = v)) := by
  obtain ⟨-, rfl⟩ | ⟨rest, hevent⟩ := step_cases h
  · exact .inr (.inr ⟨rfl, rfl, rfl, .inl rfl⟩)
  obtain ⟨_, _, -, -, -, rfl, -⟩ | ⟨w, u, hp, hr, hu, ht⟩ | ⟨v, hp, -, rfl⟩ | ⟨_, _, -, -, -, -, -, rfl⟩ | ⟨-, rfl⟩ |
    ⟨hp, hr, ht⟩ | ⟨-, -, rfl⟩ := hevent
  · exact .inr (.inr ⟨rfl, rfl, rfl, .inl rfl⟩)
  · have hrest : rest = s.pending.tail := by rw [hp, List.tail_cons]
    exact .inl ⟨w, u, commandOf_eq_some_iff.2 ⟨hr, hrest ▸ hp⟩, hrest ▸ hu, ht⟩
  · exact .inr (.inr ⟨rfl, rfl, rfl, .inr ⟨v, rest, hp, rfl⟩⟩)
  · exact .inr (.inr ⟨rfl, rfl, rfl, .inl rfl⟩)
  · exact .inr (.inr ⟨rfl, rfl, rfl, .inl rfl⟩)
  · exact .inr (.inl ⟨⟨hr, by rw [hp, List.head?_cons]⟩, by rw [ht, hp, List.tail_cons]⟩)
  · exact .inr (.inr ⟨rfl, rfl, rfl, .inl rfl⟩)

end

/-! ### The invariants (R27 to R31, U5) -/

theorem engineInv_of_initial {s : State} (hhash : s.hash = HashState.initial) (hcode : s.code = 0) : EngineInv s := by
  rw [EngineInv, hhash, hcode]
  exact ⟨hashInv_initial, by decide, fun hcomputed => absurd hcomputed Bool.false_ne_true⟩

/-- Settles O49: the state after reset is that of the initial engine with CODE = 0. -/
theorem invariantsHoldAtReset : Obligations.InvariantsHoldAtReset := by
  unfold Obligations.InvariantsHoldAtReset
  exact engineInv_of_initial State.reset_hash State.reset_code

/-- Settles O50: a command keeps the invariants, a power-on reset brings them about, and no other event changes a register that
they speak of. -/
theorem everyStepKeepsInvariants : Obligations.EveryStepKeepsInvariants := by
  unfold Obligations.EveryStepKeepsInvariants
  intro s t hinv h
  obtain ⟨w, u, -, hu, rfl⟩ | ⟨-, rfl⟩ | ⟨hhash, hdout, hcode, -⟩ := step_registers h
  · exact runCommand_engineInv (s := { s with pending := s.pending.tail }) (t := u) hinv hu
  · exact engineInv_of_initial rfl rfl
  · rw [EngineInv, hhash, hdout, hcode]
    exact hinv

/-! ### Who changes which register -/

/-- Settles O41: the cases of a step, and the frame of a command for DATAIN. -/
theorem onlyCommandsChangeEngineState : Obligations.OnlyCommandsChangeEngineState := by
  unfold Obligations.OnlyCommandsChangeEngineState
  intro s t h
  obtain ⟨w, u, hw, hu, rfl⟩ | ⟨hpower, rfl⟩ | ⟨hhash, hdout, hcode, hdatain⟩ := step_registers h
  · obtain ⟨hdatain, -⟩ := runCommand_frame hu
    exact ⟨fun hnone => absurd (hnone.symm.trans hw) (by simp), fun hchanged => absurd hdatain hchanged⟩
  · exact ⟨fun _ hno => absurd hpower hno, fun _ => .inr ⟨hpower, rfl⟩⟩
  · exact ⟨fun _ _ => ⟨hhash, hdout, hcode⟩, fun hchanged => .inl (hdatain.resolve_left hchanged)⟩

/-- A command other than RESET keeps a flag that is set: the loop of FEED and the first RESULT run only where both are 0. -/
theorem runCommand_keeps_flags {w : Word} {s t : State} (h : runCommand w s = .next t) (hreset : w ≠ encode .reset) :
    (s.hash.corrupted = true → t.hash.corrupted = true) ∧ (s.hash.computed = true → t.hash.computed = true) := by
  obtain ⟨hw, -⟩ | ⟨_, -, -, ⟨hcomputed, hcorrupted⟩, -⟩ | ⟨-, -, -, rfl⟩ | ⟨-, ⟨hcomputed, hcorrupted⟩, -⟩ | ⟨_, rfl⟩ :=
    runCommand_cases h
  · exact absurd hw hreset
  · simp [hcomputed, hcorrupted]
  · exact ⟨id, id⟩
  · simp [hcomputed, hcorrupted]
  · exact ⟨id, id⟩

/-- Settles O42: of the commands only RESET clears a flag, of the other events only a power-on reset. -/
theorem onlyResetClearsFlags : Obligations.OnlyResetClearsFlags := by
  unfold Obligations.OnlyResetClearsFlags
  intro s t h hcleared
  obtain ⟨w, u, hw, hu, rfl⟩ | ⟨hpower, -⟩ | ⟨hhash, -⟩ := step_registers h
  · by_contra hno
    have hreset : w ≠ encode .reset := fun hw' => hno (.inl (hw.trans (congrArg some hw')))
    obtain ⟨hcorrupted, hcomputed⟩ := runCommand_keeps_flags hu hreset
    obtain ⟨hset, hclear⟩ | ⟨hset, hclear⟩ := hcleared
    · exact absurd (hclear.symm.trans (hcorrupted hset)) Bool.false_ne_true
    · exact absurd (hclear.symm.trans (hcomputed hset)) Bool.false_ne_true
  · exact .inr hpower
  · rw [hhash] at hcleared
    simp at hcleared

/-- A FEED that sets CORRUPTED takes at least one byte. -/
theorem one_le_of_absorbAll_corrupted {n : Nat} {w : Word} {hs : HashState} (hopen : hs.corrupted = false)
    (hover : (absorbAll (feedBytes n w) hs).corrupted = true) : 1 ≤ n := by
  cases n with
  | zero => exact absurd (hopen.symm.trans hover) Bool.false_ne_true
  | succ n => exact Nat.le_add_left 1 n

/-- Settles O43: of the cases of a command only the FEED that absorbs can set CORRUPTED. -/
theorem onlyFeedSetsCorrupted : Obligations.OnlyFeedSetsCorrupted := by
  unfold Obligations.OnlyFeedSetsCorrupted
  intro s t h hbefore hafter
  obtain ⟨w, u, hw, hu, rfl⟩ | ⟨-, rfl⟩ | ⟨hhash, -⟩ := step_registers h
  · obtain ⟨-, rfl⟩ | ⟨n, rfl, hn, ⟨hcomputed, -⟩, rfl⟩ | ⟨-, -, -, rfl⟩ | ⟨-, -, rfl⟩ | ⟨_, rfl⟩ := runCommand_cases hu
    · cases hafter
    · exact ⟨hcomputed, if_pos hafter, n, one_le_of_absorbAll_corrupted hbefore hafter, hn, hw⟩
    · exact absurd (hbefore.symm.trans hafter) Bool.false_ne_true
    · exact absurd (hbefore.symm.trans ((finalize_corrupted _).symm.trans hafter)) Bool.false_ne_true
    · exact absurd (hbefore.symm.trans hafter) Bool.false_ne_true
  · cases hafter
  · exact absurd (hbefore.symm.trans (hhash ▸ hafter)) Bool.false_ne_true

/-- Settles O44: of the cases of a command only the first RESULT can set COMPUTED. -/
theorem onlyResultSetsComputed : Obligations.OnlyResultSetsComputed := by
  unfold Obligations.OnlyResultSetsComputed
  intro s t h hbefore hafter
  obtain ⟨w, u, hw, hu, rfl⟩ | ⟨-, rfl⟩ | ⟨hhash, -⟩ := step_registers h
  · obtain ⟨-, rfl⟩ | ⟨n, rfl, hn, -, rfl⟩ | ⟨-, -, -, rfl⟩ | ⟨rfl, ⟨-, hcorrupted⟩, rfl⟩ | ⟨_, rfl⟩ := runCommand_cases hu
    · cases hafter
    · exact absurd (hbefore.symm.trans ((absorbAll_computed _ _).symm.trans hafter)) Bool.false_ne_true
    · exact absurd (hbefore.symm.trans hafter) Bool.false_ne_true
    · exact ⟨hw, hcorrupted, rfl⟩
    · exact absurd (hbefore.symm.trans hafter) Bool.false_ne_true
  · cases hafter
  · exact absurd (hbefore.symm.trans (hhash ▸ hafter)) Bool.false_ne_true

/-- Settles O45: of the cases of a command only the two successful RESULTs write DOUT. -/
theorem onlyResultWritesDout : Obligations.OnlyResultWritesDout := by
  unfold Obligations.OnlyResultWritesDout
  intro s t h hchanged
  obtain ⟨w, u, hw, hu, rfl⟩ | ⟨hpower, -⟩ | ⟨-, hdout, -⟩ := step_registers h
  · obtain ⟨-, rfl⟩ | ⟨_, -, -, -, rfl⟩ | ⟨rfl, -, -, rfl⟩ | ⟨rfl, -, rfl⟩ | ⟨_, rfl⟩ := runCommand_cases hu
    · exact absurd rfl hchanged
    · exact absurd rfl hchanged
    · exact .inl ⟨hw, rfl, rfl⟩
    · exact .inl ⟨hw, rfl, rfl⟩
    · exact absurd rfl hchanged
  · exact .inr hpower
  · exact absurd hdout hchanged

/-- Settles O48: a finalized engine takes no bytes and is not finalized again; a RESULT writes H over a DOUT that holds it. -/
theorem finalizedEngineIsFrozen : Obligations.FinalizedEngineIsFrozen := by
  unfold Obligations.FinalizedEngineIsFrozen
  rintro s t ⟨-, -, hdout⟩ hcomputed h
  have hrefuses : ¬ Accepting s.hash := not_accepting_iff.2 (.inl hcomputed)
  obtain ⟨w, u, hw, hu, rfl⟩ | ⟨hpower, -⟩ | ⟨hhash, hkept, -⟩ := step_registers h
  · obtain ⟨rfl, -⟩ | ⟨_, -, -, ha, -⟩ | ⟨-, -, -, rfl⟩ | ⟨-, ha, -⟩ | ⟨_, rfl⟩ := runCommand_cases hu
    · exact .inr (.inl hw)
    · exact absurd ha hrefuses
    · exact .inl ⟨rfl, (hdout hcomputed).symm⟩
    · exact absurd ha hrefuses
    · exact .inl ⟨rfl, rfl⟩
  · exact .inr (.inr hpower)
  · exact .inl ⟨hhash, hkept⟩

end Sys2Proof.Machine
end

section
/-! What the host cannot learn (10_state.md R16, 41_feed.md R65): a relation between engine states that every command keeps and
that leaves the host nothing to see is kept by every run. Both statements are instances: the relation that lets H and BUF of a
corrupted engine be anything, and the one that lets the stale bytes be anything. -/

namespace Sys2Proof.Machine

open Sys2Proof.Safety

/-! ### A simulation of the machine from one of the engine state -/

/-- Engine states related by `Q` show the host the same: they agree on the flags, and on H where a RESULT can deliver it as it
stands; and the operations of the commands keep `Q`. -/
structure HashSim (Q : HashState → HashState → Prop) : Prop where
  flags : ∀ {x y}, Q x y → x.computed = y.computed ∧ x.corrupted = y.corrupted
  digest : ∀ {x y}, Q x y → x.computed = true → x.corrupted = false → x.h = y.h
  initial : Q HashState.initial HashState.initial
  absorbAll : ∀ {x y} (bs : List Byte), Q x y → Accepting x → Q (absorbAll bs x) (absorbAll bs y)
  finalize : ∀ {x y}, Q x y → Accepting x → Q (finalize x) (finalize y)

/-- Two states that differ at most in engine states related by `Q`. -/
def StateSim (Q : HashState → HashState → Prop) (s t : State) : Prop := ∃ hs, Q s.hash hs ∧ t = { s with hash := hs }

/-- The same stop, or next states related by `StateSim Q`. -/
inductive OutcomeSim (Q : HashState → HashState → Prop) :
    Host.Outcome State Fault Refusal → Host.Outcome State Fault Refusal → Prop where
  | next {s t : State} (h : StateSim Q s t) : OutcomeSim Q (.next s) (.next t)
  | fault (f : Fault) : OutcomeSim Q (.fault f) (.fault f)
  | refused (r : Refusal) : OutcomeSim Q (.refused r) (.refused r)

section
variable {Q : HashState → HashState → Prop} {s t : State} {hs : HashState}

theorem HashSim.accepting (sim : HashSim Q) {x y : HashState} (hQ : Q x y) (ha : Accepting x) : Accepting y := by
  obtain ⟨hcomputed, hcorrupted⟩ := sim.flags hQ
  exact ⟨hcomputed ▸ ha.1, hcorrupted ▸ ha.2⟩

theorem StateSim.observe (r : Reply) (h : StateSim Q s t) : StateSim Q (s.observe r) (t.observe r) := by
  obtain ⟨hs, hQ, rfl⟩ := h
  exact ⟨hs, hQ, rfl⟩

theorem OutcomeSim.sameObservation {x y : Host.Outcome State Fault Refusal} (h : OutcomeSim Q x y) :
    SameObservation x y := by
  cases h with
  | next h =>
    obtain ⟨_, -, rfl⟩ := h
    rfl
  | fault => rfl
  | refused => rfl

theorem execFeed_sim (sim : HashSim Q) (n : BitVec 3) (hQ : Q s.hash hs) :
    OutcomeSim Q (exec (.feed n) s) (exec (.feed n) { s with hash := hs }) := by
  obtain ⟨hcomputed, hcorrupted⟩ := sim.flags hQ
  rcases lt_or_ge 4 n.toNat with hbig | hn
  · rw [feedCountAboveFourIsIllegal s n hbig, feedCountAboveFourIsIllegal { s with hash := hs } n hbig]
    exact .next ⟨hs, hQ, rfl⟩
  by_cases ha : Accepting s.hash
  case pos =>
    obtain ⟨hcomputed', hcorrupted'⟩ := sim.accepting hQ ha
    have hafter := sim.absorbAll (feedBytes n.toNat s.datain) hQ ha
    rw [execFeed_accepting hn ha.1 ha.2, execFeed_accepting (s := { s with hash := hs }) hn hcomputed' hcorrupted',
      (sim.flags hafter).2]
    exact .next ⟨_, hafter, rfl⟩
  case neg =>
    have hflag := not_accepting_iff.1 ha
    rw [execFeed_refused hn hflag, execFeed_refused (s := { s with hash := hs }) hn (hcomputed ▸ hcorrupted ▸ hflag)]
    exact .next ⟨hs, hQ, rfl⟩

theorem execResult_sim (sim : HashSim Q) (hQ : Q s.hash hs) :
    OutcomeSim Q (exec .result s) (exec .result { s with hash := hs }) := by
  obtain ⟨hcomputed, hcorrupted⟩ := sim.flags hQ
  cases hk : s.hash.corrupted with
  | true =>
    rw [execResult_corrupted hk, execResult_corrupted (s := { s with hash := hs }) (hcorrupted ▸ hk)]
    exact .next ⟨hs, hQ, rfl⟩
  | false =>
    cases hc : s.hash.computed with
    | true =>
      rw [execResult_finalized hc hk,
        execResult_finalized (s := { s with hash := hs }) (hcomputed ▸ hc) (hcorrupted ▸ hk), sim.digest hQ hc hk]
      exact .next ⟨hs, hQ, rfl⟩
    | false =>
      have hafter := sim.finalize hQ ⟨hc, hk⟩
      have hdigest := sim.digest hafter (finalize_computed _) ((finalize_corrupted _).trans hk)
      rw [execResult_first ⟨hc, hk⟩, execResult_first (s := { s with hash := hs }) (sim.accepting hQ ⟨hc, hk⟩), hdigest]
      exact .next ⟨_, hafter, rfl⟩

theorem runCommand_sim (sim : HashSim Q) (w : Word) (hQ : Q s.hash hs) :
    OutcomeSim Q (runCommand w s) (runCommand w { s with hash := hs }) := by
  unfold runCommand
  cases decode w with
  | ok i =>
    cases i with
    | reset => exact .next ⟨_, sim.initial, rfl⟩
    | feed n => exact execFeed_sim sim n hQ
    | result => exact execResult_sim sim hQ
  | error e => exact .next ⟨hs, hQ, rfl⟩

theorem runRead_sim (sim : HashSim Q) (off : BitVec 6) (size : Nat) (hQ : Q s.hash hs) :
    OutcomeSim Q (runRead off size s) (runRead off size { s with hash := hs }) := by
  obtain ⟨hcomputed, hcorrupted⟩ := sim.flags hQ
  by_cases hbad : size ≠ 4 ∨ off.toNat % 4 ≠ 0
  case pos =>
    rw [runRead_bad hbad, runRead_bad hbad]
    exact .fault _
  case neg =>
    obtain ⟨rfl, haligned⟩ : size = 4 ∧ off.toNat % 4 = 0 := by omega
    rw [runRead_aligned haligned, runRead_aligned haligned,
      readRegister_congr (s := s) (t := { s with hash := hs }) off rfl rfl rfl hcomputed hcorrupted]
    exact .next ⟨hs, hQ, rfl⟩

theorem runWrite_sim (sim : HashSim Q) (off : BitVec 6) (size : Nat) (v : Word) (hQ : Q s.hash hs) :
    OutcomeSim Q (runWrite off size v s) (runWrite off size v { s with hash := hs }) := by
  by_cases hbad : size ≠ 4 ∨ off.toNat % 4 ≠ 0
  case pos =>
    rw [runWrite_bad hbad, runWrite_bad hbad]
    exact .fault _
  obtain ⟨rfl, haligned⟩ : size = 4 ∧ off.toNat % 4 = 0 := by omega
  by_cases hcmd : off = offCmd
  case pos =>
    subst hcmd
    have hcommand := runCommand_sim sim v hQ
    obtain ⟨u, hu⟩ := runCommand_completes v s
    obtain ⟨u', hu'⟩ := runCommand_completes v { s with hash := hs }
    rw [hu, hu'] at hcommand
    rw [runWrite_command hu, runWrite_command hu']
    cases hcommand with
    | next h => exact .next (h.observe _)
  case neg =>
    by_cases hdatain : off = offDatain
    case pos =>
      subst hdatain
      rw [runWrite_datain, runWrite_datain]
      exact .next ⟨hs, hQ, rfl⟩
    case neg =>
      rw [runWrite_ignored haligned hcmd hdatain, runWrite_ignored haligned hcmd hdatain]
      exact .next ⟨hs, hQ, rfl⟩

theorem runEvent_sim (sim : HashSim Q) (e : HostEvent) (hQ : Q s.hash hs) :
    OutcomeSim Q (runEvent e s) (runEvent e { s with hash := hs }) := by
  cases e with
  | read off size =>
    simp only [runEvent]
    split
    · exact .refused _
    · exact runRead_sim sim off size hQ
  | write off size v =>
    simp only [runEvent]
    split
    · exact .refused _
    · exact runWrite_sim sim off size v hQ
  | assertReset => exact .next ⟨hs, hQ, rfl⟩
  | releaseReset =>
    simp only [runEvent]
    split
    · exact .next ⟨_, sim.initial, rfl⟩
    · exact .next ⟨hs, hQ, rfl⟩

theorem step_sim (sim : HashSim Q) (h : StateSim Q s t) : OutcomeSim Q (step s) (step t) := by
  obtain ⟨hs, hQ, rfl⟩ := h
  simp only [step]
  split
  next => exact .next ⟨hs, hQ, rfl⟩
  next e rest _ => exact runEvent_sim (s := { s with pending := rest }) sim e hQ

/-- Two runs of one host program from states that differ only in related engine states stay so, or stop alike. -/
theorem run_sim (sim : HashSim Q) (n : Nat) (h : StateSim Q s t) : OutcomeSim Q (run n s) (run n t) := by
  induction n generalizing s t with
  | zero => exact .next h
  | succ n ih =>
    have hstep := step_sim sim h
    rw [run_succ, run_succ]
    generalize step s = x at hstep
    generalize step t = y at hstep
    cases hstep with
    | next h => exact ih h
    | fault f => exact .fault f
    | refused r => exact .refused r

theorem run_sameObservation (sim : HashSim Q) (n : Nat) (hQ : Q s.hash hs) :
    SameObservation (run n s) (run n { s with hash := hs }) :=
  (run_sim sim n ⟨hs, hQ, rfl⟩).sameObservation

end

/-! ### A corrupted engine (R65) -/

/-- The same engine state, or two corrupted ones with the same COMPUTED. -/
def AgreeUnlessCorrupted (x y : HashState) : Prop :=
  x = y ∨ x.corrupted = true ∧ y.corrupted = true ∧ x.computed = y.computed

/-- No command reads a corrupted engine's H or BUF: FEED and RESULT fail before they do. -/
theorem hashSim_agreeUnlessCorrupted : HashSim AgreeUnlessCorrupted where
  flags := by
    rintro x y (rfl | ⟨hx, hy, hcomputed⟩)
    · exact ⟨rfl, rfl⟩
    · exact ⟨hcomputed, hx.trans hy.symm⟩
  digest := by
    rintro x y (rfl | ⟨hx, -⟩) - hopen
    · rfl
    · exact absurd (hopen.symm.trans hx) Bool.false_ne_true
  initial := .inl rfl
  absorbAll := by
    rintro x y bs (rfl | ⟨hx, -⟩) ha
    · exact .inl rfl
    · exact absurd (ha.2.symm.trans hx) Bool.false_ne_true
  finalize := by
    rintro x y (rfl | ⟨hx, -⟩) ha
    · exact .inl rfl
    · exact absurd (ha.2.symm.trans hx) Bool.false_ne_true

/-- Settles O57: the two engine states are both corrupted, with the same COMPUTED. -/
theorem corruptedHashIsUnobservable : Obligations.CorruptedHashIsUnobservable := by
  unfold Obligations.CorruptedHashIsUnobservable
  exact fun s h buf n hcorrupted => run_sameObservation hashSim_agreeUnlessCorrupted n (.inr ⟨hcorrupted, hcorrupted, rfl⟩)

/-! ### The stale bytes (R16) -/

/-- `AgreeButStale`, with the second state's BUF as a value of its own. -/
theorem agreeButStale_iff {x y : HashState} : AgreeButStale x y ↔
    ∃ buf : Vector Byte 64, y = { x with buf := buf } ∧ ∀ (j : Nat) (_ : j < 64), j < x.idx.toNat → x.buf[j] = buf[j] := by
  refine ⟨fun h => ⟨y.buf, h⟩, ?_⟩
  rintro ⟨buf, rfl, hvalid⟩
  exact ⟨rfl, hvalid⟩

theorem bitCount_with_buf (hs : HashState) (buf : Vector Byte 64) :
    bitCount { hs with buf := buf } = { bitCount hs with buf := buf } := by
  simp only [bitCount]
  split_ifs <;> rfl

/-- A byte that does not fill the block is stored and counted. -/
theorem absorb_of_lt {hs : HashState} (b : Byte) (h : hs.idx.toNat < 63) : absorb b hs = bitCount (putByte b hs) := by
  have hidx : (bitCount (putByte b hs)).idx = hs.idx + 1 := by rw [bitCount_idx, putByte_idx]
  rw [absorb, compressIfFull, hidx, if_neg (idx_add_one_eq_iff.not.2 h.ne)]

section
variable {x y : HashState}

/-- One byte keeps the agreement: it goes into both at the first stale position, and where it fills the block no byte is stale. -/
theorem absorb_agreeButStale (b : Byte) (hidx : x.idx.toNat ≤ 63) (h : AgreeButStale x y) :
    AgreeButStale (absorb b x) (absorb b y) := by
  obtain ⟨buf, rfl, hvalid⟩ := agreeButStale_iff.1 h
  have hstored : ∀ (j : Nat) (_ : j < 64), j ≤ x.idx.toNat →
      (x.buf.setIfInBounds x.idx.toNat b)[j] = (buf.setIfInBounds x.idx.toNat b)[j] := by
    intro j hj hle
    rw [Vector.getElem_setIfInBounds, Vector.getElem_setIfInBounds]
    split
    next => rfl
    next hne => exact hvalid j hj (by omega)
  rcases hidx.lt_or_eq with hlt | hfull
  · refine agreeButStale_iff.2 ⟨buf.setIfInBounds x.idx.toNat b, ?_, fun j hj hlt' => ?_⟩
    · rw [absorb_of_lt b hlt, absorb_of_lt (hs := { x with buf := buf }) b hlt, ← bitCount_with_buf]
      rfl
    · rw [absorb_idx_toNat x b hidx] at hlt'
      simpa only [absorb_buf] using hstored j hj (by omega)
  · have hput : putByte b { x with buf := buf } = putByte b x := by
      have hbuf : buf.setIfInBounds x.idx.toNat b = x.buf.setIfInBounds x.idx.toNat b :=
        Vector.ext fun j hj => (hstored j hj (by omega)).symm
      simp only [putByte, hbuf]
    have habsorb : absorb b { x with buf := buf } = absorb b x := by rw [absorb, hput, absorb]
    exact ⟨by rw [habsorb], fun j hj _ => by rw [habsorb]⟩

/-- Engine states with IDX in 0..63 that agree but for the stale bytes. -/
def StaleSim (x y : HashState) : Prop := x.idx.toNat ≤ 63 ∧ AgreeButStale x y

theorem staleSim_refl (h : x.idx.toNat ≤ 63) : StaleSim x x := ⟨h, rfl, fun _ _ _ => rfl⟩

theorem StaleSim.corrupted (h : StaleSim x y) : x.corrupted = y.corrupted := by
  obtain ⟨-, heq, -⟩ := h
  rw [heq]

theorem absorb_staleSim (b : Byte) (h : StaleSim x y) : StaleSim (absorb b x) (absorb b y) := by
  obtain ⟨hidx, hagree⟩ := h
  refine ⟨?_, absorb_agreeButStale b hidx hagree⟩
  rw [absorb_idx_toNat x b hidx]
  omega

theorem absorbAll_staleSim (bs : List Byte) (h : StaleSim x y) : StaleSim (absorbAll bs x) (absorbAll bs y) := by
  induction bs generalizing x y with
  | nil => exact h
  | cons b bs ih =>
    have hb := absorb_staleSim b h
    rw [absorbAll, absorbAll, ← hb.corrupted]
    split
    · exact hb
    · exact ih hb

/-- What `Pad()` hashes reads BUF at the positions below IDX alone (R70). -/
theorem pad_h_eq_of_staleSim (h : StaleSim x y) : (pad x).h = (pad y).h := by
  obtain ⟨h63, hagree⟩ := h
  obtain ⟨buf, rfl, hvalid⟩ := agreeButStale_iff.1 hagree
  rcases le_or_gt x.idx.toNat 55 with hone | htwo
  · have hblock : padOnlyBlock { x with buf := buf } = padOnlyBlock x := by
      ext1 j hj
      simp only [padOnlyBlock, Vector.getElem_ofFn]
      split
      next hlt => exact (hvalid j hj hlt).symm
      next => rfl
    rw [(pad_one_block hone).1, (pad_one_block (hs := { x with buf := buf }) hone).1, hblock]
  · have hblock : padFirstBlock { x with buf := buf } = padFirstBlock x := by
      ext1 j hj
      simp only [padFirstBlock, Vector.getElem_ofFn]
      split
      next hlt => exact (hvalid j hj hlt).symm
      next => rfl
    rw [(pad_two_blocks htwo h63).1, (pad_two_blocks (hs := { x with buf := buf }) htwo h63).1, hblock]
    rfl

end

theorem hashSim_staleSim : HashSim StaleSim where
  flags := fun h => by
    obtain ⟨-, heq, -⟩ := h
    rw [heq]
    exact ⟨rfl, rfl⟩
  digest := fun h _ _ => by
    obtain ⟨-, heq, -⟩ := h
    rw [heq]
  initial := staleSim_refl (by decide)
  absorbAll := fun bs h _ => absorbAll_staleSim bs h
  finalize := fun {x y} h _ => by
    have heq : finalize y = finalize x := by
      rw [finalize_eq, finalize_eq, pad_h_eq_of_staleSim h, h.corrupted]
    rw [heq]
    exact staleSim_refl (by rw [finalize_idx]; decide)

/-- Settles O58: the stale bytes are overwritten by message bytes or by the padding before a block is hashed. -/
theorem staleBytesAreUnobservable : Obligations.StaleBytesAreUnobservable := by
  unfold Obligations.StaleBytesAreUnobservable
  exact fun s hs n hidx hagree => run_sameObservation hashSim_staleSim n ⟨hidx, hagree⟩

end Sys2Proof.Machine
end

section
/-! The source's call `feed(bytes, length)` (41_feed.md R66): each of its FEEDs acts on the engine state by its bytes and reports
whether the engine still accepts input, and the reads of STATUS carry that to the call's status. -/

namespace Sys2Proof.Machine

open Sys2Proof.Safety

/-! ### The groups of a message -/

theorem chunkBytes_feedGroups (m : List Byte) : chunkBytes (feedGroups m) = m := by
  induction m using feedGroups.induct with
  | case1 => rfl
  | case2 a => exact feedOperandIsLeadingBytes a 0 0 0 1 (by decide)
  | case3 a b => exact feedOperandIsLeadingBytes a b 0 0 2 (by decide)
  | case4 a b c => exact feedOperandIsLeadingBytes a b c 0 3 (by decide)
  | case5 a b c d rest ih =>
    have hrest : chunkBytes (feedGroups (a :: b :: c :: d :: rest)) =
        feedBytes 4 (be32 a b c d) ++ chunkBytes (feedGroups rest) := rfl
    rw [hrest, feedBytes_four_be32, ih]
    rfl

theorem feedGroups_counts (m : List Byte) : ∀ g ∈ feedGroups m, 1 ≤ g.2.toNat ∧ g.2.toNat ≤ 4 := by
  induction m using feedGroups.induct with
  | case1 => exact fun _ hg => absurd hg List.not_mem_nil
  | case2 a => exact List.forall_mem_singleton.2 (by simp)
  | case3 a b => exact List.forall_mem_singleton.2 (by simp)
  | case4 a b c => exact List.forall_mem_singleton.2 (by simp)
  | case5 a b c d rest ih => exact List.forall_mem_cons.2 ⟨by simp, ih⟩

/-! ### A FEED and the read of STATUS after it -/

/-- CODE after a FEED, from the engine state that it leaves: SUCCESS exactly where the engine still accepts input. -/
def feedCode (hs : HashState) : BitVec 2 := if Accepting hs then codeSuccess else codeStateError

theorem feedCode_eq_or (hs : HashState) : feedCode hs = codeStateError ∨ feedCode hs = codeSuccess :=
  (ite_eq_or_eq _ _ _).symm

theorem feedCode_refused {hs : HashState} (h : ¬ Accepting hs) : feedCode hs = codeStateError := if_neg h

theorem feedCode_eq_stateError_iff {hs : HashState} : feedCode hs = codeStateError ↔ ¬ Accepting hs :=
  ⟨fun hcode ha => absurd ((if_pos ha).symm.trans hcode) (by decide), feedCode_refused⟩

theorem feedCode_of_not_computed {hs : HashState} (h : hs.computed = false) :
    feedCode hs = if hs.corrupted then codeStateError else codeSuccess := by
  simp only [feedCode, Accepting, h, true_and]
  cases hs.corrupted <;> rfl

/-- A FEED as its action on the engine state, with the CODE it reports. -/
theorem execFeed_feedCode {n : BitVec 3} (s : State) (hn : n.toNat ≤ 4) : exec (.feed n) s = .next { s with
    hash := feedHash (feedBytes n.toNat s.datain) s.hash
    code := feedCode (feedHash (feedBytes n.toNat s.datain) s.hash) } := by
  by_cases ha : Accepting s.hash
  case pos =>
    rw [feedHash_accepting ha, feedCode_of_not_computed ((absorbAll_computed _ _).trans ha.1)]
    exact execFeed_accepting hn ha.1 ha.2
  case neg =>
    rw [feedHash_refused ha, feedCode_refused ha]
    exact execFeed_refused hn (not_accepting_iff.1 ha)

/-- The state after a `FEED n`, with the reply to the command write. -/
def State.fed (n : BitVec 3) (s : State) : State :=
  { s with
    hash := feedHash (feedBytes n.toNat s.datain) s.hash
    code := feedCode (feedHash (feedBytes n.toNat s.datain) s.hash)
    replies := s.replies ++ [.write .ok] }

/-- From `s`, FEEDs of the bytes `bs` have led to `t`, and their reads of STATUS, among the replies `rs`, report the CODE that
they leave. -/
structure Fed (bs : List Byte) (s t : State) (rs : List Reply) : Prop where
  hash : t.hash = feedHash bs s.hash
  code : t.code = feedCode t.hash
  status : callStatus rs = t.code
  replies : t.replies = s.replies ++ rs
  dout : t.dout = s.dout
  resetHeld : t.resetHeld = s.resetHeld

/-- FEEDs one after the other. An engine that refuses after the first part refuses the second one too, so that the status of the
first part is the CODE at the end. -/
theorem Fed.append {xs ys : List Byte} {s t u : State} {rs rs' : List Reply} (hx : Fed xs s t rs) (hy : Fed ys t u rs') :
    Fed (xs ++ ys) s u (rs ++ rs') where
  hash := by rw [hy.hash, hx.hash, feedHash_append]
  code := hy.code
  status := by
    rw [callStatus_append, hx.status, hy.status]
    split
    next herror =>
      have hrefuses : ¬ Accepting t.hash := feedCode_eq_stateError_iff.1 (hx.code.symm.trans herror)
      rw [hy.code, hy.hash, feedHash_refused hrefuses, feedCode_refused hrefuses]
    next => rfl
  replies := by rw [hy.replies, hx.replies, List.append_assoc]
  dout := hy.dout.trans hx.dout
  resetHeld := hy.resetHeld.trans hx.resetHeld

section
variable {s : State} {ps : List Pseudo}

theorem runAll_load_fed {n : BitVec 3} (hn : n.toNat ≤ 4) (hr : s.resetHeld = false) :
    runAll (load s (.feed n :: ps)) = runAll (load (s.fed n) ps) :=
  runAll_command hr (decode_feedWord n hn) (execFeed_feedCode (load s ps) hn)

theorem runAll_load_status (hr : s.resetHeld = false) :
    runAll (load s (.status :: ps)) = runAll (load (s.observe (.read (statusWord s) .ok)) ps) :=
  runAll_of_step rfl (step_status hr rfl)

/-- `FEED n` and the read of STATUS after it. -/
theorem runAll_load_feed_status {n : BitVec 3} (hn : n.toNat ≤ 4) (hr : s.resetHeld = false) :
    ∃ t rs, runAll (load s (.feed n :: .status :: ps)) = runAll (load t ps) ∧
      Fed (feedBytes n.toNat s.datain) s t rs := by
  refine ⟨(s.fed n).observe (.read (statusWord (s.fed n)) .ok), [.write .ok] ++ [.read (statusWord (s.fed n)) .ok],
    (runAll_load_fed hn hr).trans (runAll_load_status hr), ?_⟩
  exact {
    hash := rfl
    code := rfl
    status := callStatus_group (s.fed n) (feedCode_eq_or _) [.write .ok] rfl
    replies := List.append_assoc ..
    dout := rfl
    resetHeld := rfl }

/-- One group: DATAIN is written first, and that write's reply says nothing of the status. -/
theorem runAll_load_feedAndCheck {g : Word × BitVec 3} (hg : g.2.toNat ≤ 4) (hr : s.resetHeld = false) :
    ∃ t rs, runAll (load s (feedAndCheck g ++ ps)) = runAll (load t ps) ∧ Fed (feedBytes g.2.toNat g.1) s t rs := by
  obtain ⟨t, rs, hrun, hfed⟩ := runAll_load_feed_status (ps := ps) hg
    (s := { s with datain := g.1, replies := s.replies ++ [.write .ok] }) hr
  refine ⟨t, .write .ok :: rs, (runAll_load_feedb hr).trans hrun, ?_⟩
  exact { hfed with replies := hfed.replies.trans (List.append_assoc ..) }

theorem runAll_load_groups (g : Word × BitVec 3) (gs : List (Word × BitVec 3)) (hgs : ∀ c ∈ g :: gs, c.2.toNat ≤ 4)
    (hr : s.resetHeld = false) :
    ∃ t rs, runAll (load s ((g :: gs).flatMap feedAndCheck ++ ps)) = runAll (load t ps) ∧
      Fed (chunkBytes (g :: gs)) s t rs := by
  induction gs generalizing g s with
  | nil =>
    have hbytes : chunkBytes [g] = feedBytes g.2.toNat g.1 := List.flatMap_singleton ..
    rw [List.flatMap_singleton, hbytes]
    exact runAll_load_feedAndCheck (hgs g List.mem_cons_self) hr
  | cons g' gs ih =>
    obtain ⟨hg, hgs⟩ := List.forall_mem_cons.1 hgs
    obtain ⟨t, rs, hrun, hfed⟩ := runAll_load_feedAndCheck (ps := (g' :: gs).flatMap feedAndCheck ++ ps) hg hr
    obtain ⟨u, rs', hrun', hfed'⟩ := ih g' hgs (hfed.resetHeld.trans hr)
    rw [List.flatMap_cons, List.append_assoc]
    exact ⟨u, rs ++ rs', hrun.trans hrun', hfed.append hfed'⟩

/-- The call before a program `ps`: it feeds the message, and `ps` runs from there. -/
theorem runAll_load_feedCall (m : List Byte) (hr : s.resetHeld = false) :
    ∃ t rs, runAll (load s (feedCall m ++ ps)) = runAll (load t ps) ∧ Fed m s t rs := by
  cases m with
  | nil => exact runAll_load_feed_status (n := 0) (by decide) hr
  | cons b bs =>
    have hbytes := chunkBytes_feedGroups (b :: bs)
    have hcounts := feedGroups_counts (b :: bs)
    rw [feedCall]
    cases hgs : feedGroups (b :: bs) with
    | nil => rw [hgs] at hbytes; cases hbytes
    | cons g gs =>
      rw [hgs] at hbytes hcounts
      rw [← hbytes]
      exact runAll_load_groups g gs (fun c hc => (hcounts c hc).2) hr

theorem runAll_feedCall (m : List Byte) (hr : s.resetHeld = false) :
    ∃ t rs, runAll (load s (feedCall m)) = .next (load t []) ∧ Fed m s t rs := by
  obtain ⟨t, rs, hrun, hfed⟩ := runAll_load_feedCall (ps := []) m hr
  rw [List.append_nil] at hrun
  exact ⟨t, rs, hrun.trans (runAll_of_idle rfl), hfed⟩

end

/-- Settles O52: the call feeds the message (`Fed`), by the byte loop where the engine accepts input and to no effect where it does
not, and its status is `feedCode` of the engine state it leaves. -/
theorem feedCallAbsorbsTheMessage : Obligations.FeedCallAbsorbsTheMessage := by
  unfold Obligations.FeedCallAbsorbsTheMessage
  refine ⟨fun m => ⟨chunkBytes_feedGroups m, feedGroups_counts m⟩, fun s m hr => ?call⟩
  case call =>
    obtain ⟨t, rs, hrun, hfed⟩ := runAll_feedCall m hr
    have hstatus := hfed.status.trans hfed.code
    refine ⟨load t [], rs, hrun, hfed.replies, hfed.status.symm, hfed.dout, rfl, fun ha => ?accepts, fun hrefuses => ?refuses⟩
    case accepts =>
      have hhash := hfed.hash.trans (feedHash_accepting ha m)
      have hcomputed : t.hash.computed = false := by rw [hhash, absorbAll_computed, ha.1]
      exact ⟨hhash, hstatus.trans (feedCode_of_not_computed hcomputed)⟩
    case refuses =>
      have hhash := hfed.hash.trans (feedHash_refused hrefuses m)
      exact ⟨hhash, hstatus.trans (hhash ▸ feedCode_refused hrefuses)⟩

/-- Settles O53: an engine that has reported STATE_ERROR refuses what follows, so the longer call leaves the same state. -/
theorem feedCallErrorIsFinal : Obligations.FeedCallErrorIsFinal := by
  unfold Obligations.FeedCallErrorIsFinal
  intro s t xs ys hr hxs hcode
  obtain ⟨t', _, hrun, hfed⟩ := runAll_feedCall xs hr
  rw [hrun] at hxs
  cases hxs
  obtain ⟨u, rs, hrun', hfed'⟩ := runAll_feedCall (xs ++ ys) hr
  have hrefuses : ¬ Accepting t'.hash := feedCode_eq_stateError_iff.1 (hfed.code.symm.trans hcode)
  have hhash : u.hash = t'.hash := by rw [hfed'.hash, feedHash_append, ← hfed.hash, feedHash_refused hrefuses]
  have herror : u.code = codeStateError := by rw [hfed'.code, hhash, feedCode_refused hrefuses]
  exact ⟨load u [], rs, hrun', hfed'.replies, hhash, hfed'.dout.trans hfed.dout.symm, herror, hfed'.status.trans herror⟩

end Sys2Proof.Machine
end

section
/-! The digest of a message (00_scope.md R3, 10_state.md R28, 42_result.md R70): what the bytes of an open message make of the
engine state, and that `Pad()` then hashes the remaining blocks of the padded message. -/

namespace Sys2Proof.Machine

open Sys2Proof.Safety

/-! ### The blocks of a list of bytes -/

theorem hashBlocks_zero (bytes : List Byte) : hashBlocks bytes 0 = iv := by
  rw [hashBlocks, List.range_zero, List.foldl_nil]

theorem hashBlocks_succ (bytes : List Byte) (n : Nat) :
    hashBlocks bytes (n + 1) = compressBlock (hashBlocks bytes n) (blockAt bytes n) := by
  simp only [hashBlocks, List.range_succ, List.foldl_append, List.foldl_cons, List.foldl_nil]

theorem blockAt_append {xs : List Byte} (ys : List Byte) {b : Nat} (h : 64 * (b + 1) ≤ xs.length) :
    blockAt (xs ++ ys) b = blockAt xs b := by
  ext1 j hj
  simp only [blockAt, Vector.getElem_ofFn]
  exact List.getD_append _ _ _ _ (by omega)

/-- The full blocks of a message are those of every message that it begins. -/
theorem hashBlocks_append {xs : List Byte} (ys : List Byte) {n : Nat} (h : 64 * n ≤ xs.length) :
    hashBlocks (xs ++ ys) n = hashBlocks xs n := by
  induction n with
  | zero => rw [hashBlocks_zero, hashBlocks_zero]
  | succ n ih => rw [hashBlocks_succ, hashBlocks_succ, ih (by omega), blockAt_append ys h]

/-! ### An open message (R28) -/

/-- The engine state after the bytes `m` of an open message (R28), fed to a fresh engine. -/
structure OpenMessage (m : List Byte) (hs : HashState) : Prop where
  accepting : Accepting hs
  len_eq : (len hs).toNat = 8 * m.length
  idx_eq : hs.idx.toNat = m.length % 64
  buf_eq : ∀ (j : Nat) (_ : j < 64), j < m.length % 64 → hs.buf[j] = m.getD (64 * (m.length / 64) + j) 0
  h_eq : hs.h = hashBlocks m (m.length / 64)

theorem openMessage_initial : OpenMessage [] HashState.initial where
  accepting := ⟨rfl, rfl⟩
  len_eq := rfl
  idx_eq := rfl
  buf_eq := fun _ _ h => absurd h (Nat.not_lt_zero _)
  h_eq := rfl

section
variable {m : List Byte} {hs : HashState} (b : Byte)

theorem OpenMessage.lenLo_mod_eight (h : OpenMessage m hs) : hs.lenLo.toNat % 8 = 0 := by
  have hlen := h.len_eq
  rw [len_toNat] at hlen
  omega

/-- The next byte keeps the counter below its overflow where the message stays shorter than 2^61 bytes. -/
theorem OpenMessage.absorb_accepting (h : OpenMessage m hs) (hm : m.length + 1 < 2 ^ 61) : Accepting (absorb b hs) := by
  obtain ⟨hcomputed, hcorrupted⟩ := h.accepting
  refine ⟨(absorb_computed hs b).trans hcomputed, ?_⟩
  have hlen := h.len_eq
  rw [← Bool.not_eq_true, absorb_corrupted_iff, hcorrupted]
  simp only [Bool.false_eq_true, false_or]
  omega

/-- With the next byte stored, BUF holds the message's bytes from the last full block on, up to that byte. -/
theorem OpenMessage.absorb_buf_eq (h : OpenMessage m hs) (j : Nat) (hj : j < 64) (hle : j ≤ m.length % 64) :
    (absorb b hs).buf[j] = (m ++ [b]).getD (64 * (m.length / 64) + j) 0 := by
  simp only [absorb_buf, Vector.getElem_setIfInBounds, h.idx_eq]
  split
  next heq =>
    have hpos : 64 * (m.length / 64) + j = m.length := by omega
    rw [hpos, List.getD_append_right _ _ _ _ le_rfl, Nat.sub_self, List.getD_cons_zero]
  next hne => rw [List.getD_append _ _ _ _ (by omega), h.buf_eq j hj (by omega)]

theorem OpenMessage.absorb (h : OpenMessage m hs) (hm : m.length + 1 < 2 ^ 61) : OpenMessage (m ++ [b]) (absorb b hs) := by
  have haccepting := h.absorb_accepting b hm
  have hidx := h.idx_eq
  have hlength : (m ++ [b]).length = m.length + 1 := List.length_append
  have hblocks := hashBlocks_append [b] (xs := m) (n := m.length / 64) (by omega)
  refine ⟨haccepting, ?len, ?idx, ?buf, ?h⟩
  case len => rw [len_absorb_toNat h.lenLo_mod_eight haccepting.2, h.len_eq, hlength, Nat.mul_add_one]
  case idx => rw [absorb_idx_toNat hs b (by omega), hidx, hlength, Nat.mod_add_mod]
  case buf =>
    intro j hj hlt
    have hdiv : (m ++ [b]).length / 64 = m.length / 64 := by omega
    rw [hdiv, h.absorb_buf_eq b j hj (by omega)]
  case h =>
    rw [absorb_h]
    split
    next hfull =>
      have h63 := idx_add_one_eq_iff.1 hfull
      have hdiv : (m ++ [b]).length / 64 = m.length / 64 + 1 := by omega
      have hblock : hs.buf.setIfInBounds hs.idx.toNat b = blockAt (m ++ [b]) (m.length / 64) := by
        ext1 j hj
        rw [blockAt, Vector.getElem_ofFn, ← h.absorb_buf_eq b j hj (by omega)]
        simp only [absorb_buf]
      rw [hdiv, hashBlocks_succ, hblocks, hblock, h.h_eq]
    next hroom =>
      have hne := idx_add_one_eq_iff.not.1 hroom
      have hdiv : (m ++ [b]).length / 64 = m.length / 64 := by omega
      rw [hdiv, hblocks, h.h_eq]

end

theorem absorbAll_singleton (b : Byte) (hs : HashState) : absorbAll [b] hs = absorb b hs := by
  rw [absorbAll, absorbAll_nil, ite_self]

/-- The bytes of a message that does not overflow the counter, fed to a fresh engine one by one. -/
theorem openMessage_absorbAll (m : List Byte) (hm : m.length < 2 ^ 61) : OpenMessage m (absorbAll m HashState.initial) := by
  induction m using List.reverseRecOn with
  | nil => exact openMessage_initial
  | append_singleton m b ih =>
    rw [List.length_append, List.length_singleton] at hm
    have hopen := ih (by omega)
    have hcorrupted := hopen.accepting.2
    rw [absorbAll_append m [b] _ rfl, hcorrupted, if_neg Bool.false_ne_true, absorbAll_singleton]
    exact hopen.absorb b hm

/-- The valid bytes of BUF are the message's last ones, as lists. -/
theorem OpenMessage.take_buf {m : List Byte} {hs : HashState} (h : OpenMessage m hs) :
    hs.buf.toList.take (m.length % 64) = m.drop (m.length - m.length % 64) := by
  have hmod : m.length % 64 < 64 := Nat.mod_lt _ (by decide)
  refine List.ext_getElem ?_ fun j hj _ => ?_
  · rw [List.length_take, Vector.length_toList, List.length_drop]
    omega
  · rw [List.length_take, Vector.length_toList] at hj
    have hpos : m.length - m.length % 64 + j = 64 * (m.length / 64) + j := by omega
    rw [List.getElem_take, Vector.getElem_toList, List.getElem_drop, h.buf_eq j (by omega) (by omega),
      List.getD_eq_getElem _ _ (by omega)]
    simp only [hpos]

/-- Settles O51: the counter of a fresh engine is 0, so 2^61 bytes overflow it; below that, `openMessage_absorbAll`. -/
theorem openMessageState : Obligations.OpenMessageState := by
  unfold Obligations.OpenMessageState
  refine fun m => ⟨?overflow, fun hm => ?openMessage⟩
  case overflow =>
    have hzero : (len HashState.initial).toNat = 0 := rfl
    rw [absorbAll_corrupted_iff m rfl rfl, hzero]
    omega
  case openMessage =>
    have hopen := openMessage_absorbAll m hm
    exact ⟨hopen.len_eq, hopen.idx_eq, hopen.take_buf, hopen.h_eq⟩

/-! ### The padded message (R70), byte by byte -/

/-- How many zero bytes stand between the 0x80 byte and the length field. -/
def zeroCount (m : List Byte) : Nat := (119 - m.length % 64) % 64

@[simp] theorem length_lengthField (n : Nat) : (lengthField n).length = 8 := by simp [lengthField]

theorem padMessage_eq (m : List Byte) :
    padMessage m = m ++ ([0x80] ++ (List.replicate (zeroCount m) 0x00 ++ lengthField m.length)) := by
  simp only [padMessage, zeroCount, List.append_assoc]

section
variable (m : List Byte) {k : Nat}

theorem length_padMessage : (padMessage m).length = m.length + 1 + zeroCount m + 8 := by
  simp only [padMessage_eq, List.length_append, List.length_replicate, length_lengthField, List.length_singleton]
  omega

theorem getD_padMessage_message (h : k < m.length) : (padMessage m).getD k 0 = m.getD k 0 := by
  rw [padMessage_eq, List.getD_append _ _ _ _ h]

theorem getD_padMessage_marker : (padMessage m).getD m.length 0 = 0x80 := by
  rw [padMessage_eq, List.getD_append_right _ _ _ _ le_rfl, Nat.sub_self]
  rfl

theorem getD_padMessage_zero (hlow : m.length < k) (hhigh : k < m.length + 1 + zeroCount m) :
    (padMessage m).getD k 0 = 0x00 := by
  rw [padMessage_eq, List.getD_append_right _ _ _ _ hlow.le,
    List.getD_append_right _ _ _ _ (by rw [List.length_singleton]; omega), List.length_singleton,
    List.getD_append _ _ _ _ (by rw [List.length_replicate]; omega), List.getD_replicate _ (by omega)]

theorem getD_padMessage_length (hk : k < 8) :
    (padMessage m).getD (m.length + 1 + zeroCount m + k) 0 =
      (BitVec.ofNat 64 (8 * m.length)).extractLsb' (56 - 8 * k) 8 := by
  have hpos : m.length + 1 + zeroCount m + k - m.length - 1 - zeroCount m = k := by omega
  rw [padMessage_eq, List.getD_append_right _ _ _ _ (by omega),
    List.getD_append_right _ _ _ _ (by rw [List.length_singleton]; omega), List.length_singleton,
    List.getD_append_right _ _ _ _ (by rw [List.length_replicate]; omega), List.length_replicate, hpos]
  simp [lengthField, hk]

end

/-! ### `Pad()` hashes what remains of the padded message -/

section
variable {m : List Byte} {hs : HashState} {k : Nat}

theorem OpenMessage.lenByte_eq (h : OpenMessage m hs) (hk : k < 8) :
    lenByte hs k = (padMessage m).getD (m.length + 1 + zeroCount m + k) 0 := by
  have hlen : len hs = BitVec.ofNat 64 (8 * m.length) := by rw [← h.len_eq, BitVec.ofNat_toNat, BitVec.setWidth_eq]
  rw [lenByte, hlen, getD_padMessage_length m hk]

/-- A byte of the block that the message ends in, while it is no byte of the length field. -/
theorem OpenMessage.last_block_byte (h : OpenMessage m hs) {j : Nat} (hj : j < 64) (hroom : j ≤ m.length % 64 + zeroCount m) :
    (padMessage m).getD (64 * (m.length / 64) + j) 0 =
      if j < hs.idx.toNat then hs.buf[j] else if j = hs.idx.toNat then 0x80 else 0x00 := by
  rw [h.idx_eq]
  rcases lt_trichotomy j (m.length % 64) with hlt | heq | hgt
  · rw [if_pos hlt, getD_padMessage_message m (by omega), h.buf_eq j hj hlt]
  · have hpos : 64 * (m.length / 64) + j = m.length := by omega
    rw [if_neg heq.not_lt, if_pos heq, hpos, getD_padMessage_marker]
  · rw [if_neg hgt.not_gt, if_neg hgt.ne', getD_padMessage_zero m (by omega) (by omega)]

/-- The length field has room in the block the message ends in. -/
theorem OpenMessage.padOnlyBlock_eq (h : OpenMessage m hs) (hroom : hs.idx.toNat ≤ 55) :
    padOnlyBlock hs = blockAt (padMessage m) (m.length / 64) := by
  have hidx := h.idx_eq
  have hzeros : zeroCount m = 55 - m.length % 64 := by rw [zeroCount]; omega
  ext1 j hj
  simp only [padOnlyBlock, blockAt, Vector.getElem_ofFn]
  rcases lt_or_ge j 56 with hlow | hhigh
  · rw [h.last_block_byte hj (by omega), if_pos hlow]
  · have hpos : 64 * (m.length / 64) + j = m.length + 1 + zeroCount m + (j - 56) := by omega
    rw [if_neg (by omega), if_neg (by omega), if_neg hhigh.not_gt, hpos, h.lenByte_eq (by omega)]

/-- The length field has no room in that block, whose rest is zeros. -/
theorem OpenMessage.padFirstBlock_eq (h : OpenMessage m hs) (hfull : 56 ≤ hs.idx.toNat) :
    padFirstBlock hs = blockAt (padMessage m) (m.length / 64) := by
  have hidx := h.idx_eq
  have hzeros : zeroCount m = 119 - m.length % 64 := by rw [zeroCount]; omega
  ext1 j hj
  simp only [padFirstBlock, blockAt, Vector.getElem_ofFn]
  rw [h.last_block_byte hj (by omega)]

/-- The block after it then holds zeros and the length field. -/
theorem OpenMessage.padSecondBlock_eq (h : OpenMessage m hs) (hfull : 56 ≤ hs.idx.toNat) :
    padSecondBlock hs = blockAt (padMessage m) (m.length / 64 + 1) := by
  have hidx := h.idx_eq
  have hzeros : zeroCount m = 119 - m.length % 64 := by rw [zeroCount]; omega
  ext1 j hj
  simp only [padSecondBlock, blockAt, Vector.getElem_ofFn]
  rcases lt_or_ge j 56 with hlow | hhigh
  · rw [if_pos hlow, getD_padMessage_zero m (by omega) (by omega)]
  · have hpos : 64 * (m.length / 64 + 1) + j = m.length + 1 + zeroCount m + (j - 56) := by omega
    rw [if_neg hhigh.not_gt, hpos, h.lenByte_eq (by omega)]

/-- `Pad()` takes the engine from the full blocks of the message to its digest. -/
theorem OpenMessage.pad_h_eq_sha1 (h : OpenMessage m hs) : (pad hs).h = sha1 m := by
  have hidx := h.idx_eq
  have hlength := length_padMessage m
  have hblocks : hs.h = hashBlocks (padMessage m) (m.length / 64) := by
    rw [h.h_eq, padMessage_eq, hashBlocks_append _ (by omega)]
  rcases le_or_gt hs.idx.toNat 55 with hone | htwo
  · have hzeros : zeroCount m = 55 - m.length % 64 := by rw [zeroCount]; omega
    have hcount : (padMessage m).length / 64 = m.length / 64 + 1 := by omega
    rw [(pad_one_block hone).1, h.padOnlyBlock_eq hone, hblocks, sha1, hcount, hashBlocks_succ]
  · have hzeros : zeroCount m = 119 - m.length % 64 := by rw [zeroCount]; omega
    have hcount : (padMessage m).length / 64 = m.length / 64 + 1 + 1 := by omega
    rw [(pad_two_blocks htwo (by omega)).1, h.padFirstBlock_eq htwo, h.padSecondBlock_eq htwo, hblocks, sha1, hcount,
      hashBlocks_succ, hashBlocks_succ]

end

/-! ### RESET, the call, and RESULT -/

theorem runAll_load_reset {s : State} {ps : List Pseudo} (hr : s.resetHeld = false) :
    runAll (load s (.reset :: ps)) = runAll (load { s with
      hash := HashState.initial, code := codeSuccess, replies := s.replies ++ [.write .ok] } ps) :=
  runAll_command hr (decode_encode (i := .reset) rfl) (execReset_eq _)

/-- Settles O55: RESET makes the engine fresh, the call leaves the open message, and RESULT pads it to its digest. -/
theorem digestIsSha1OfTheMessage : Obligations.DigestIsSha1OfTheMessage := by
  unfold Obligations.DigestIsSha1OfTheMessage
  intro s m hr hm
  obtain ⟨-, -, -, -, hstatus, -⟩ := statusWordLayout
  obtain ⟨t, rs, hcall, hfed⟩ := runAll_load_feedCall (ps := [.result]) m
    (s := { s with hash := HashState.initial, code := codeSuccess, replies := s.replies ++ [.write .ok] }) hr
  have hhash : t.hash = absorbAll m HashState.initial := hfed.hash.trans (feedHash_accepting ⟨rfl, rfl⟩ m)
  have hopen : OpenMessage m t.hash := hhash ▸ openMessage_absorbAll m hm
  have hresult := execResult_first (s := load t []) hopen.accepting
  have hword := hstatus _ _ hresult rfl
  have hrun := runAll_load_result (hfed.resetHeld.trans hr) hresult
  have hdigest : (finalize t.hash).h = sha1 m := (finalize_h _).trans hopen.pad_h_eq_sha1
  exact ⟨_, ((runAll_load_reset hr).trans hcall).trans hrun, hdigest, hdigest, rfl, rfl, hword⟩

end Sys2Proof.Machine
end
